-- ==== Sys2Proof/Word.lean ====
section
/-! DEFINITION. The widths of the engine's quantities (spec/00_scope.md R9, R12). Addition, `xor`, `and`, `or` and `not`
on words are those of `BitVec 32`: addition wraps modulo 2^32 and sets no flag (R9, R11). -/

namespace Sys2Proof

/-- A byte: 8 bits (R12). -/
abbrev Byte := BitVec 8

/-- A word: an unsigned 32-bit value (R9). -/
abbrev Word := BitVec 32

/-- The 64-bit pattern of a seed (R12, R29, R90: the sign plays no part). -/
abbrev Seed := BitVec 64

end Sys2Proof
end

