-- ==== Sys2Proof/Config.lean ====
section
/-! DEFINITION. What is fixed before the engine runs: the parameters of spec/00_scope.md R7, the open parameters of R8 and the
contents of the registers that reset leaves without a value (spec/10_state.md R34, R35). -/

namespace Sys2Proof

namespace Config

/-- BLOCK_SIZE, bytes per block (R7). -/
abbrev blockSize : Nat := 128

/-- PAD_THRESHOLD = BLOCK_SIZE - 5: a shorter tail is padded into one block (R7). -/
abbrev padThreshold : Nat := 123

/-- LEN_FIELD_OFFSET: where the 4-byte length field stands in a padded block (R7). -/
abbrev lenFieldOffset : Nat := 124

/-- BURST_MAX: the most data bytes one WRITE carries (R7, R73, R110). -/
abbrev burstMax : Nat := 4096

end Config

/-- A rotate amount in 1..31, the only amounts the spec uses (R10, R139): stored as the amount less one, so that no other
value can be written. -/
structure RotAmount where
  less1 : Fin 31
  deriving DecidableEq, Repr, Inhabited

/-- The amount itself. -/
def RotAmount.amount (n : RotAmount) : Nat := n.less1.val + 1

/-- WIRING, the record of open parameters of the compressor (spec/43_compressor.md R139): the round constants, `shift`, the
accumulator operands of each update, and the schedule word each update adds. -/
structure Wiring where
  roundConst : Fin 4 → Word
  shift : Fin 4 → Fin 6 → RotAmount
  src : Fin 6 → Fin 6
  opX : Fin 6 → Fin 6
  opY : Fin 6 → Fin 6
  opZ : Fin 6 → Fin 6
  wordIdx : Fin 4 → Fin 8 → Fin 6 → Fin 32
  deriving Inhabited

/-- HEX_ORDER: the order of the 8 digits of a word in the hex string (spec/44_formatter.md R161). -/
inductive HexOrder where
  | bytewise
  | numeric
  deriving DecidableEq, Repr

/-- MARKER_127: what FINISH does with the marker when the tail has 127 bytes (spec/41_framer.md R105). -/
inductive Marker127 where
  | drop
  | refuse
  deriving DecidableEq, Repr

namespace Config

/-- The engine's WIRING, fixed for its life (R8, R139; U2). It has no body: a statement about the machine is a statement
for every `Wiring`. DESIGN CHOICE, log 5: safe. -/
opaque wiring : Wiring

/-- The engine's HEX_ORDER: the default of R161 and of spec/90_conflicts.md C4. DESIGN CHOICE, log 7: unsafe. -/
def hexOrder : HexOrder := .bytewise

/-- The engine's MARKER_127: the default of R105. DESIGN CHOICE, log 8: unsafe. -/
def marker127 : Marker127 := .drop

/-- What SEED holds after reset: the spec gives no value (R34) and forbids zero (R35), so it is a constant no proof can see.
DESIGN CHOICE, log 3: unsafe. -/
opaque resetSeed : Seed

/-- What H[i] holds after reset (R34, R35). DESIGN CHOICE, log 3: unsafe. -/
opaque resetH : Fin 6 → Word

/-- What A[i] holds after reset (R34, R35). DESIGN CHOICE, log 3: unsafe. -/
opaque resetA : Fin 6 → Word

/-- What W[i] holds after reset (R34, R35). DESIGN CHOICE, log 3: unsafe. -/
opaque resetW : Fin 32 → Word

end Config

end Sys2Proof
end

