-- ==== Sys2Proof/Syntax.lean ====
section
/-! DEFINITION. The commands, the frames that carry them and the responses (spec/30_encoding.md). -/

namespace Sys2Proof

/-- A command frame (R70): byte 0, the opcode, and the payload, bytes 1... A frame of length zero cannot be written, as the
transport cannot express it (R70, U12; log 9). -/
structure Frame where
  opcode : Byte
  payload : List Byte
  deriving DecidableEq, Repr

/-- The frame's bytes in the order the port delivers them (R70). -/
def Frame.bytes (f : Frame) : List Byte := f.opcode :: f.payload

/-- The frame's length in bytes, opcode included (R71). -/
def Frame.length (f : Frame) : Nat := f.payload.length + 1

/-- A response frame: byte 0, the code, and the payload (R74). -/
structure Response where
  code : Byte
  payload : List Byte
  deriving DecidableEq, Repr

/-- The response's bytes in the order the port emits them (R74). -/
def Response.bytes (r : Response) : List Byte := r.code :: r.payload

/-- The error codes (R74, spec/60_exceptions.md R180). -/
inductive ErrCode where
  | eIllegal
  | eFormat
  | ePhase
  | eIo
  deriving DecidableEq, Repr

/-- The eight commands of the opcode map (R71), one constructor per row of spec/opcode_table.json. -/
inductive Instr where
  /-- SETSEED: one 64-bit seed (R72, spec/40_seed.md R92). -/
  | setseed (seed : Seed)
  /-- START (R93). -/
  | start
  /-- WRITE: the data bytes in message order (R73, spec/41_framer.md R101). -/
  | write (data : List Byte)
  /-- FINISH (R102). -/
  | finish
  /-- READB (spec/44_formatter.md R162). -/
  | readb
  /-- READH (R163). -/
  | readh
  /-- STATUS (spec/45_control.md R170). -/
  | status
  /-- ABORT (R171). -/
  | abort
  deriving DecidableEq, Repr

end Sys2Proof
end

