-- ==== Sys2Proof/WellFormed.lean ====
section
/-! DEFINITION. Which instructions a frame can carry (spec/30_encoding.md R71, R73). -/

namespace Sys2Proof

/-- An instruction some frame encodes: a WRITE has 1 to 4096 data bytes (R73, R110); a seed is any 64-bit value (R92); the
other commands have no operand. -/
def Instr.wf : Instr → Bool
  | .setseed _ => true
  | .start => true
  | .write data => decide (1 ≤ data.length) && decide (data.length ≤ Config.burstMax)
  | .finish => true
  | .readb => true
  | .readh => true
  | .status => true
  | .abort => true

end Sys2Proof
end

