-- ==== Sys2Proof/Decode.lean ====
section
/-! DEFINITION. From bytes to commands and back (spec/30_encoding.md R70 to R79), with the byte order of every multi-byte
quantity (spec/20_memory.md R51, spec/00_scope.md R12). -/

namespace Sys2Proof

/-- The number whose little-endian bytes are given, the first byte least significant (R12, R51). -/
def leNat : List Byte → Nat
  | [] => 0
  | b :: bs => b.toNat + 256 * leNat bs

/-- The `n` low-order bytes of `v`, least significant first (R12, R51). -/
def leBytes : Nat → Nat → List Byte
  | 0, _ => []
  | n + 1, v => BitVec.ofNat 8 v :: leBytes n (v / 256)

/-- The seed of a SETSEED payload (R72). -/
def seedOfPayload (p : List Byte) : Seed := BitVec.ofNat 64 (leNat p)

/-- The pattern of an integer seed, two's complement for a negative one (R72, R80, G7). -/
def seedOfInt (v : Int) : Seed := BitVec.ofInt 64 v

/-- The commands by name, without operands. -/
inductive Op where
  | setseed | start | write | finish | readb | readh | status | abort
  deriving DecidableEq, Repr

/-- A row of the opcode map: byte 0 is matched under the mask, then the frame length is checked (R71). -/
structure OpRow where
  op : Op
  mask : Byte
  pattern : Byte
  minLength : Nat
  maxLength : Nat
  deriving DecidableEq, Repr

/-- The complete opcode map (R71, spec/opcode_table.json). -/
def opcodeMap : List OpRow :=
  [ ⟨.setseed, 0xFF, 0x01, 9, 9⟩,
    ⟨.start, 0xFF, 0x02, 1, 1⟩,
    ⟨.write, 0xFF, 0x03, 2, Config.burstMax + 1⟩,
    ⟨.finish, 0xFF, 0x04, 1, 1⟩,
    ⟨.readb, 0xFF, 0x05, 1, 1⟩,
    ⟨.readh, 0xFF, 0x06, 1, 1⟩,
    ⟨.status, 0xFF, 0x07, 1, 1⟩,
    ⟨.abort, 0xFF, 0x08, 1, 1⟩ ]

/-- The row that byte 0 of a frame selects, if any (R71, R77). -/
def opRow (opcode : Byte) : Option OpRow :=
  opcodeMap.find? fun r => opcode &&& r.mask == r.pattern

/-- The command with its operands taken from the payload (R72, R73). -/
def Op.withPayload (op : Op) (p : List Byte) : Instr :=
  match op with
  | .setseed => .setseed (seedOfPayload p)
  | .start => .start
  | .write => .write p
  | .finish => .finish
  | .readb => .readb
  | .readh => .readh
  | .status => .status
  | .abort => .abort

/-- Why a byte sequence is no command. -/
inductive DecodeError where
  /-- There is no byte at all: not a frame (R70, U12). -/
  | empty
  /-- Byte 0 is no opcode of R71 (R77, R181). -/
  | illegal
  /-- A known opcode with a wrong frame length (R78, R182). -/
  | format
  deriving DecidableEq, Repr

/-- The decoder on a frame: first the opcode, then the length (R71, R79, spec/60_exceptions.md R188). -/
def decodeFrame (f : Frame) : Except ErrCode Instr :=
  match opRow f.opcode with
  | none => .error .eIllegal
  | some r =>
    if r.minLength ≤ f.length ∧ f.length ≤ r.maxLength then .ok (r.op.withPayload f.payload) else .error .eFormat

/-- The decoder on any byte sequence (R79): a command, or the reason there is none. -/
def decode : List Byte → Except DecodeError Instr
  | [] => .error .empty
  | op :: p =>
    match decodeFrame ⟨op, p⟩ with
    | .ok i => .ok i
    | .error .eIllegal => .error .illegal
    | .error _ => .error .format

/-- The opcode byte of a command (R71). -/
def Instr.opcode : Instr → Byte
  | .setseed _ => 0x01
  | .start => 0x02
  | .write _ => 0x03
  | .finish => 0x04
  | .readb => 0x05
  | .readh => 0x06
  | .status => 0x07
  | .abort => 0x08

/-- The payload bytes of a command (R71 to R73). -/
def Instr.payload : Instr → List Byte
  | .setseed seed => leBytes 8 seed.toNat
  | .start => []
  | .write data => data
  | .finish => []
  | .readb => []
  | .readh => []
  | .status => []
  | .abort => []

/-- The frame of a command (R71, R80). -/
def encodeFrame (i : Instr) : Frame := ⟨i.opcode, i.payload⟩

/-- The bytes of a command's frame (R71, R80). -/
def encode (i : Instr) : List Byte := (encodeFrame i).bytes

/-- The fewest payload bytes the opcode's row allows (R71). -/
def minPayload (opcode : Byte) : Nat :=
  match opRow opcode with
  | none => 0
  | some r => r.minLength - 1

/-- A word of the opcode table as a frame: its `nbits / 8` bytes, lowest first, then zero operand bytes up to the shortest
frame the opcode allows. The length of a frame comes from the transport, not from its bits (R79), so the shortest frame
stands for "the rest is zero" (log 11). No frame where there is not one whole byte. -/
def tableFrame (nbits w : Nat) : Option Frame :=
  match leBytes (nbits / 8) w with
  | [] => none
  | op :: p => some ⟨op, p ++ List.replicate (minPayload op - p.length) 0⟩

/-- What the decoder reads from a word of the opcode table. -/
def decodeTableWord (nbits w : Nat) : Option Instr :=
  match tableFrame nbits w with
  | none => none
  | some f =>
    match decode f.bytes with
    | .ok i => some i
    | .error _ => none

end Sys2Proof
end

