-- ==== Sys2Proof/Machine/State.lean ====
section
/-! DEFINITION. The engine's state (spec/10_state.md) with its two ports, as plain data, and the reasons a step can stop. -/

namespace Sys2Proof.Machine

/-- PHASE, a 2-bit register with four values (R27). -/
inductive Phase where
  /-- 0: after reset, no hash computation exists. -/
  | idle
  /-- 1: a computation is open, WRITE and FINISH are legal. -/
  | absorb
  /-- 2: FINISH has run, READB and READH are legal. -/
  | done
  /-- 3: a command ended with an error, or ABORT ran. -/
  | failed
  deriving DecidableEq, Repr

/-- What reaches the engine from outside (spec/30_encoding.md R70, spec/70_reset_and_hazards.md R210): a command frame, or an
assertion of the reset input; `abandoned` is the frame whose command the reset cuts off, if one is in progress (U11). -/
inductive Input where
  | frame (f : Frame)
  | reset (abandoned : Option Frame)
  deriving DecidableEq, Repr

/-- The block buffer BLK (R25): address and byte, addresses strictly rising and below 128. An address that is not listed
holds no value (R35; log 4). -/
abbrev Memory := List Host.Cell

/-- Strictly rising addresses, all of them above `lo` or equal to it and below BLOCK_SIZE. -/
def Memory.wfFrom (lo : Nat) : Memory → Bool
  | [] => true
  | c :: m => decide (lo ≤ c.1) && decide (c.1 < Config.blockSize) && Memory.wfFrom (c.1 + 1) m

/-- The canonical form of BLK: equal contents are equal lists. -/
def Memory.wf (m : Memory) : Bool := Memory.wfFrom 0 m

/-- Reasons a step stops the model. None is an error of the engine (those are error entries with a next state, R189), and
none is raised in a state the engine can reach. -/
inductive Fault where
  /-- Raised by a compression that reads a byte of BLK nothing has written (R35, U9). Safe: the spec says the byte has no value. -/
  | unwrittenByte
  /-- Raised by WRITE when FILL is above 128: the byte would go to an offset outside BLK (R26, R50). Safe: FILL never holds such a value. -/
  | outsideBlk (offset : Nat)
  /-- Raised by FINISH when FILL is above 128 (R26, R102). Safe: FILL never holds such a value. -/
  | fillAbove128 (size : Nat)
  deriving DecidableEq, Repr

/-- Reasons a step has no outcome in the model. -/
inductive Refusal where
  /-- Raised by `exec` alone, for an instruction that has no meaning yet. Safe. -/
  | notModelled (mnemonic : String)
  /-- Raised by FINISH with FILL = 127 where MARKER_127 is REFUSE (R105, U1): the spec then gives no outcome. Safe. -/
  | marker127
  deriving DecidableEq, Repr

/-- The engine's state and its two ports. -/
structure State where
  /-- SEED (R29). -/
  seed : Seed
  /-- SEED_VALID (R29). -/
  seedValid : Bool
  /-- PHASE (R27). -/
  phase : Phase
  /-- ERR (R28). -/
  err : Byte
  /-- FILL (R26). -/
  fill : Byte
  /-- H[0..5] (R21, R22). -/
  h : Vector Word 6
  /-- A[0..5] = a..f (R23). -/
  a : Vector Word 6
  /-- W[0..31] (R24). -/
  w : Vector Word 32
  /-- BLK (R25). -/
  blk : Memory
  /-- The frames and resets still to come, oldest first (R57, R70, U13; log 1). -/
  inq : List Input
  /-- The response frames emitted, oldest first (R70, R74; log 2). -/
  out : List Response
  deriving DecidableEq, Repr

/-- The outcome of a step of this machine. -/
abbrev Result := Host.Outcome State Fault Refusal

/-- The engine after reset (R34, R210): control registers as stated, the other registers at the constants of log 3, BLK
without a value anywhere, nothing at the ports. -/
def State.reset : State where
  seed := Config.resetSeed
  seedValid := false
  phase := .idle
  err := 0
  fill := 0
  h := Vector.ofFn Config.resetH
  a := Vector.ofFn Config.resetA
  w := Vector.ofFn Config.resetW
  blk := []
  inq := []
  out := []

end Sys2Proof.Machine
end

