-- ==== Sys2Proof/Machine/Operands.lean ====
section
/-! DEFINITION. Words, their rotation and their bytes (spec/00_scope.md R9 to R13, spec/20_memory.md R51). -/

namespace Sys2Proof.Machine

/-- `rotl(x, n)`: left rotation by `n`, used for `n` in 1..31 (R10). -/
def rotl (x : Word) (n : Nat) : Word := (x <<< n) ||| (x >>> (32 - n))

/-- `LE32(w)`: the four bytes of a word, least significant first (R12). -/
def le32 (w : Word) : List Byte := leBytes 4 w.toNat

/-- `WORD_LE(b0, b1, b2, b3)`: the word whose least significant byte is `b0` (R12). -/
def wordLE (b0 b1 b2 b3 : Byte) : Word := BitVec.ofNat 32 (leNat [b0, b1, b2, b3])

/-- The low 32 bits of a seed, `s1` (R72, R90). -/
def seedLow (s : Seed) : Word := s.extractLsb' 0 32

/-- The high 32 bits of a seed, `s2` (R72, R90). -/
def seedHigh (s : Seed) : Word := s.extractLsb' 32 32

end Sys2Proof.Machine
end

