-- ==== Sys2Proof/Machine/Flags.lean ====
section
/-! DEFINITION. The values the control registers show (spec/10_state.md R27, R28, R31; spec/30_encoding.md R74, R75). The
data path has no flags (R31): SEED_VALID is the only one-bit status, and the flags byte of STATUS shows it. -/

namespace Sys2Proof.Machine

/-- The 2-bit value of PHASE (R27). -/
def Phase.code : Phase → BitVec 2
  | .idle => 0
  | .absorb => 1
  | .done => 2
  | .failed => 3

/-- PHASE as the byte STATUS shows (R75). -/
def Phase.byte (p : Phase) : Byte := p.code.setWidth 8

/-- The flags byte of STATUS: SEED_VALID in bit 0, bits 7:1 zero (R75). -/
def statusFlags (seedValid : Bool) : Byte := if seedValid then 1 else 0

/-- The response code OK (R74). -/
def okCode : Byte := 0x00

/-- The value of an error code, in a response and in ERR (R74, spec/60_exceptions.md R180). -/
def errByte : ErrCode → Byte
  | .eIllegal => 0x01
  | .eFormat => 0x02
  | .ePhase => 0x03
  | .eIo => 0x04

end Sys2Proof.Machine
end

