-- ==== Sys2Proof/Machine/Ops.lean ====
section
/-! DEFINITION. The shared operations: the block buffer's reads and writes, responses, error entry and the ways out of it,
reset. -/

namespace Sys2Proof.Machine

/-- Go on from a next state; a stop stays a stop. -/
def andThen (o : Result) (f : State → Result) : Result :=
  match o with
  | .next s => f s
  | .fault r => .fault r
  | .refused r => .refused r

/-- The byte of BLK at offset `o`, if one has been written (spec/00_scope.md R13, R35). -/
def Memory.read : Memory → Nat → Option Byte
  | [], _ => none
  | c :: m, o => if o = c.1 then some c.2 else Memory.read m o

/-- `BLK[o] <- b` (R13). -/
def Memory.write : Memory → Nat → Byte → Memory
  | [], o, b => [(o, b)]
  | c :: m, o, b =>
    if o < c.1 then (o, b) :: c :: m
    else if o = c.1 then (o, b) :: m
    else c :: Memory.write m o b

/-- `MemWrite(o, n, v)`: the bytes of `v`, given least significant first, from offset `o` on (R13). -/
def Memory.writeBytes (m : Memory) (o : Nat) : List Byte → Memory
  | [] => m
  | b :: bs => Memory.writeBytes (m.write o b) (o + 1) bs

/-- Zero bytes from offset `o` on, `n` of them: step (a) of the padding (spec/41_framer.md R103). -/
def Memory.zeroFrom (m : Memory) (o n : Nat) : Memory := m.writeBytes o (List.replicate n 0)

/-- The bytes of BLK that the scheduler reads, offsets 0..63 (spec/42_scheduler.md R120, R123), if all have been written. -/
def Memory.scheduled (m : Memory) : Option (Fin 64 → Byte) :=
  if h : ∀ o : Fin 64, (m.read o.val).isSome = true then some fun o => (m.read o.val).get (h o) else none

/-- `BLK[FILL] <- b; FILL <- FILL + 1` (spec/41_framer.md R101). -/
def storeAtFill (b : Byte) (s : State) : Result :=
  if s.fill.toNat < Config.blockSize then
    .next { s with blk := s.blk.write s.fill.toNat b, fill := s.fill + 1 }
  else .fault (.outsideBlk s.fill.toNat)

/-- Emit one response frame (spec/30_encoding.md R70, R74). -/
def respond (code : Byte) (payload : List Byte) (s : State) : State :=
  { s with out := s.out ++ [⟨code, payload⟩] }

/-- `respond(OK, payload)` (R13, R74). -/
def respondOk (payload : List Byte) (s : State) : State := respond okCode payload s

/-- Error entry, `raise E(code)`: ERR takes the code, PHASE becomes FAILED, the response is the code alone, nothing else
changes (spec/60_exceptions.md R189). -/
def raiseError (e : ErrCode) (s : State) : State :=
  respond (errByte e) [] { s with err := errByte e, phase := .failed }

/-- The way out of FAILED, and the opening of a computation in every phase: the new State in H, an empty buffer, no error,
phase ABSORB (spec/40_seed.md R93, R191). -/
def openComputation (h : Vector Word 6) (s : State) : State :=
  { s with h := h, fill := 0, err := 0, phase := .absorb }

/-- The reset input: the state of `State.reset`, whatever came before. What the ports have delivered and emitted stays, and a
command in progress is abandoned without a response (spec/70_reset_and_hazards.md R210, U11; log 10). -/
def resetEngine (s : State) : State := { State.reset with inq := s.inq, out := s.out }

end Sys2Proof.Machine
end

