-- ==== Sys2Proof/Machine/Control.lean ====
section
/-! DEFINITION. STATUS and ABORT (spec/45_control.md). -/

namespace Sys2Proof.Machine

/-- The four payload bytes of STATUS: PHASE, ERR, FILL, flags (spec/30_encoding.md R75). -/
def statusPayload (s : State) : List Byte := [s.phase.byte, s.err, s.fill, statusFlags s.seedValid]

/-- STATUS (R170): legal in every phase, writes nothing. -/
def execStatus (s : State) : Result := .next (respondOk (statusPayload s) s)

/-- ABORT (R171): legal in every phase; E_IO goes into ERR, the answer is OK. -/
def execAbort (s : State) : Result := .next (respondOk [] { s with err := errByte .eIo, phase := .failed })

end Sys2Proof.Machine
end

