-- ==== Sys2Proof/Machine/Formatter.lean ====
section
/-! DEFINITION. The Digest Formatter: the two presentations, READB and READH (spec/44_formatter.md). -/

namespace Sys2Proof.Machine

/-- `ToBytes(H)`: the six words in order, each little-endian (R160). -/
def toBytes (h : Vector Word 6) : List Byte := h.toList.flatMap le32

/-- The alphabet of the hex string (R161, R82). -/
def hexAlphabet : List Char := ['0', '1', '2', '3', '4', '5', '6', '7', '8', '9', 'A', 'B', 'C', 'D', 'E', 'F']

/-- `HEXDIGIT(n)` (R161). -/
def hexDigit (n : BitVec 4) : Char := hexAlphabet.getD n.toNat '0'

/-- `hex2(v)`: the two digits of a byte, high nibble first (R161). -/
def hex2 (v : Byte) : List Char := [hexDigit (v.extractLsb' 4 4), hexDigit (v.extractLsb' 0 4)]

/-- The eight digits of a word, most significant first (R161, NUMERIC). -/
def hexWord (w : Word) : List Char :=
  [28, 24, 20, 16, 12, 8, 4, 0].map fun lo => hexDigit (w.extractLsb' lo 4)

/-- `ToHex(H)` in either digit order (R161). -/
def toHex (order : HexOrder) (h : Vector Word 6) : List Char :=
  match order with
  | .bytewise => (toBytes h).flatMap hex2
  | .numeric => h.toList.flatMap hexWord

/-- The ASCII code of a character of the alphabet (R82). -/
def asciiByte (c : Char) : Byte := BitVec.ofNat 8 c.toNat

/-- The value of a hex digit, if it is one (R164). -/
def hexValue (c : Char) : Option (BitVec 4) :=
  if hexAlphabet.idxOf c < 16 then some (BitVec.ofNat 4 (hexAlphabet.idxOf c)) else none

/-- `hexdecode`: two characters a byte, high nibble first (R164). -/
def hexDecode : List Char → Option (List Byte)
  | [] => some []
  | [_] => none
  | c :: d :: cs =>
    match hexValue c, hexValue d, hexDecode cs with
    | some hi, some lo, some bs => some ((hi ++ lo) :: bs)
    | _, _, _ => none

/-- READB (R162): the digest's bytes in DONE, an error in the other phases. -/
def execReadb (s : State) : Result :=
  if s.phase = .done then .next (respondOk (toBytes s.h) s) else .next (raiseError .ePhase s)

/-- READH for either HEX_ORDER (R163). -/
def readhWith (order : HexOrder) (s : State) : Result :=
  if s.phase = .done then .next (respondOk ((toHex order s.h).map asciiByte) s) else .next (raiseError .ePhase s)

/-- READH (R163). -/
def execReadh (s : State) : Result := readhWith Config.hexOrder s

end Sys2Proof.Machine
end

