-- ==== Sys2Proof/Machine/Scheduler.lean ====
section
/-! DEFINITION. The Message Scheduler (spec/42_scheduler.md). -/

namespace Sys2Proof.Machine

/-- The load phase: the first 16 words of the block, from its bytes 0..63 (R120, R123). -/
def rawWords (b : Fin 64 → Byte) : Vector Word 16 :=
  Vector.ofFn fun i : Fin 16 =>
    wordLE (b ⟨4 * i.val, by omega⟩) (b ⟨4 * i.val + 1, by omega⟩) (b ⟨4 * i.val + 2, by omega⟩) (b ⟨4 * i.val + 3, by omega⟩)

/-- One step of the recurrence, for the index `16 + i` (R121). -/
def schedStep (w : Vector Word 32) (i : Fin 16) : Vector Word 32 :=
  w.set (16 + i.val)
    (rotl (w[16 + i.val - 5] ^^^ w[16 + i.val - 7] ^^^ w[16 + i.val - 9] ^^^ w[16 + i.val - 13]) 1)

/-- `Sched()`: the raw words in positions 0..15, then positions 16..31 in increasing order (R120 to R122). The zeros that
stand in positions 16..31 at first are overwritten before any is read (R124). -/
def schedule (b : Fin 64 → Byte) : Vector Word 32 :=
  (List.finRange 16).foldl schedStep (rawWords b ++ Vector.replicate 16 (0 : Word))

end Sys2Proof.Machine
end

