-- ==== Sys2Proof/Machine/Compressor.lean ====
section
/-! DEFINITION. The Compressor (spec/43_compressor.md). -/

namespace Sys2Proof.Machine

/-- F1, round 1 (R131). -/
def f1 (x y z : Word) : Word := z ^^^ ((y ^^^ x) &&& z)

/-- F2, round 2 (R132). -/
def f2 (x y z : Word) : Word := x ^^^ y ^^^ z

/-- F3, round 3 (R133). -/
def f3 (x y z : Word) : Word := (x &&& y) ||| (x &&& z) ||| (y &&& z)

/-- F4, round 4 (R134). -/
def f4 (x y z : Word) : Word := (x &&& y) ||| ((z ^^^ ~~~x) &&& y) ||| ~~~z

/-- F_r for the rounds 0..3 (R134, R144). -/
def boolFn : Fin 4 → Word → Word → Word → Word
  | 0 => f1
  | 1 => f2
  | 2 => f3
  | 3 => f4

/-- The finalization constant C4 (R135). -/
def finC4 : Word := 0xD28146D5

/-- The finalization constant C5 (R135). -/
def finC5 : Word := 0x8EA96F89

/-- DST[k]: the accumulator update k adds into, f, e, d, c, b, a (R136). -/
def dst (k : Fin 6) : Fin 6 := (#v[5, 4, 3, 2, 1, 0] : Vector (Fin 6) 6)[k]

/-- TGT[k]: the accumulator rotated after update k, b, f, a, e, d, c (R136). -/
def tgt (k : Fin 6) : Fin 6 := (#v[1, 5, 0, 4, 3, 2] : Vector (Fin 6) 6)[k]

/-- ROT[r][k]: the amount of that rotation (R137). -/
def rotTable (r : Fin 4) (k : Fin 6) : Nat :=
  ((#v[#v[29, 29, 27, 27, 30, 30],
       #v[22, 22, 12, 31, 18, 31],
       #v[27, 27, 28, 28, 30, 30],
       #v[26, 26, 23, 23, 15, 15]] : Vector (Vector Nat 6) 4)[r])[k]

/-- The first assignment of an update: the value `A[DST[k]]` takes, from the accumulators before it (R138, R14). -/
def updateSum (wr : Wiring) (w : Vector Word 32) (r : Fin 4) (j : Fin 8) (k : Fin 6) (a : Vector Word 6) : Word :=
  a[dst k] + rotl a[wr.src k] (wr.shift r k).amount + boolFn r a[wr.opX k] a[wr.opY k] a[wr.opZ k]
    + w[wr.wordIdx r j k] + wr.roundConst r

/-- `Update(r, j, k)`: the addition, then the rotation of a second accumulator, which sees it (R138). -/
def update (wr : Wiring) (w : Vector Word 32) (r : Fin 4) (j : Fin 8) (k : Fin 6) (a : Vector Word 6) : Vector Word 6 :=
  let a' := a.set (dst k).val (updateSum wr w r j k a)
  a'.set (tgt k).val (rotl a'[tgt k] (rotTable r k))

/-- One iteration: the six updates in order (R130, R143). -/
def iteration (wr : Wiring) (w : Vector Word 32) (r : Fin 4) (a : Vector Word 6) (j : Fin 8) : Vector Word 6 :=
  (List.finRange 6).foldl (fun a k => update wr w r j k a) a

/-- One round: the eight iterations in order (R130, R143). -/
def round (wr : Wiring) (w : Vector Word 32) (a : Vector Word 6) (r : Fin 4) : Vector Word 6 :=
  (List.finRange 8).foldl (iteration wr w r) a

/-- The four rounds in order, starting from the State; the accumulators are not reset between rounds (R143). -/
def rounds (wr : Wiring) (w : Vector Word 32) (h : Vector Word 6) : Vector Word 6 :=
  (List.finRange 4).foldl (round wr w) h

/-- The finalization (R142). -/
def finalization (h a : Vector Word 6) : Vector Word 6 :=
  #v[h[0] + (a[0] ^^^ finC4), h[1] + (a[1] ^^^ finC4), h[2] + (a[2] ||| finC5), h[3] + (a[3] ||| finC5),
     h[4] + (a[4] &&& finC4), h[5] + (a[5] ^^^ ~~~finC5)]

/-- The State after one compression, as a function of the State and the block's bytes 0..63 (R143, R123). -/
def compressH (wr : Wiring) (h : Vector Word 6) (b : Fin 64 → Byte) : Vector Word 6 :=
  finalization h (rounds wr (schedule b) h)

/-- `Compress()`: W, A and H are written, BLK is read and kept (R143). The bytes it reads have been written in every state
the engine reaches (R35; log 4). -/
def compress (wr : Wiring) (s : State) : Result :=
  match s.blk.scheduled with
  | none => .fault .unwrittenByte
  | some b =>
    .next { s with w := schedule b, a := rounds wr (schedule b) s.h, h := compressH wr s.h b }

/-- REF0, the spec's executable choice of WIRING (R140), for tests; the machine's own WIRING is `Config.wiring` (log 6). -/
def ref0 : Wiring where
  roundConst r := (#v[0x5A827999, 0x6ED9EBA1, 0x8F1BBCDC, 0xCA62C1D6] : Vector Word 4)[r]
  shift _ _ := ⟨4⟩
  src k := (#v[0, 5, 4, 3, 2, 1] : Vector (Fin 6) 6)[k]
  opX k := (#v[1, 0, 5, 4, 3, 2] : Vector (Fin 6) 6)[k]
  opY k := (#v[2, 1, 0, 5, 4, 3] : Vector (Fin 6) 6)[k]
  opZ k := (#v[3, 2, 1, 0, 5, 4] : Vector (Fin 6) 6)[k]
  wordIdx r j k := ⟨(48 * r.val + 6 * j.val + k.val) % 32, Nat.mod_lt _ (by decide)⟩

end Sys2Proof.Machine
end

