-- ==== Sys2Proof/Machine/Framer.lean ====
section
/-! DEFINITION. The Block Framer: padding, WRITE and FINISH (spec/41_framer.md). -/

namespace Sys2Proof.Machine

/-- The marker byte (R103, R82). -/
def markerByte : Byte := 0x80

/-- `enc = LE32(size)`, the length field's four bytes (R103, R104, D26). -/
def lengthField (size : Nat) : List Byte := le32 (BitVec.ofNat 32 size)

/-- `PadSingle(size)`, for size at most 122: zero fill, marker at `size + 1`, length at 124..127 (R103). -/
def padSingle (size : Nat) (m : Memory) : Memory :=
  ((m.zeroFrom size (Config.blockSize - size)).write (size + 1) markerByte).writeBytes Config.lenFieldOffset (lengthField size)

/-- The bytes of the length field at those offsets 124 + j that `keep` selects, in the order j = 0..3 (R104). -/
def writeLengthWhere (keep : Nat → Bool) (size : Nat) (m : Memory) : Memory :=
  ((lengthField size).zipIdx).foldl
    (fun m bj => if keep (Config.lenFieldOffset + bj.2) then m.write (Config.lenFieldOffset + bj.2) bj.1 else m) m

/-- `PadSpillFirst(size)`, for size 123..127: zero fill, the marker where it lies inside the block, the length bytes above it
(R104, R105). -/
def padSpillFirst (size : Nat) (m : Memory) : Memory :=
  let z := m.zeroFrom size (Config.blockSize - size)
  let z := if size + 1 < Config.blockSize then z.write (size + 1) markerByte else z
  writeLengthWhere (fun o => decide (size + 1 < o)) size z

/-- `PadSpillSecond(size)`: the whole buffer zero, then the remaining length bytes, and no marker (R104). -/
def padSpillSecond (size : Nat) (m : Memory) : Memory :=
  writeLengthWhere (fun o => decide (o ≤ size + 1)) size (m.zeroFrom 0 Config.blockSize)

/-- The lazy flush before a byte: a full buffer is compressed when the next byte arrives (R101, D4). -/
def flushFull (wr : Wiring) (s : State) : Result :=
  if s.fill = 128 then andThen (compress wr s) fun t => .next { t with fill := 0 } else .next s

/-- One message byte (R101). -/
def absorbByte (wr : Wiring) (b : Byte) (s : State) : Result :=
  andThen (flushFull wr s) (storeAtFill b)

/-- The message bytes of a WRITE in order (R101, R109). -/
def absorbBytes (wr : Wiring) : List Byte → State → Result
  | [], s => .next s
  | b :: bs, s => andThen (absorbByte wr b s) (absorbBytes wr bs)

/-- WRITE for any WIRING (R101). -/
def writeWith (wr : Wiring) (data : List Byte) (s : State) : Result :=
  if s.phase = .absorb then andThen (absorbBytes wr data s) fun t => .next (respondOk [] t)
  else .next (raiseError .ePhase s)

/-- WRITE (R101). -/
def execWrite (data : List Byte) (s : State) : Result := writeWith Config.wiring data s

/-- The padding and the last one or two compressions of FINISH (R102 to R107): size = 128 as it stands, size at most 122 in
one padded block, 123..127 in two. -/
def padAndCompress (wr : Wiring) (mk : Marker127) (s : State) : Result :=
  let size := s.fill.toNat
  if size = Config.blockSize then compress wr s
  else if size < Config.padThreshold then compress wr { s with blk := padSingle size s.blk }
  else if size < Config.blockSize then
    if size = 127 ∧ mk = .refuse then .refused .marker127
    else andThen (compress wr { s with blk := padSpillFirst size s.blk })
      fun t => compress wr { t with blk := padSpillSecond size t.blk }
  else .fault (.fillAbove128 size)

/-- FINISH for any WIRING and either MARKER_127 (R102). -/
def finishWith (wr : Wiring) (mk : Marker127) (s : State) : Result :=
  if s.phase = .absorb then
    andThen (padAndCompress wr mk s) fun t => .next (respondOk [] { t with fill := 0, phase := .done })
  else .next (raiseError .ePhase s)

/-- FINISH (R102). -/
def execFinish (s : State) : Result := finishWith Config.wiring Config.marker127 s

end Sys2Proof.Machine
end

