-- ==== Sys2Proof/Machine/Seed.lean ====
section
/-! DEFINITION. The Seed Expander, SETSEED and START (spec/40_seed.md). -/

namespace Sys2Proof.Machine

/-- The initialization constant H0 (R91). -/
def initH0 : Word := 0x209536F9
/-- The initialization constant H1 (R91). -/
def initH1 : Word := 0x1267A4BB
/-- The initialization constant H2 (R91). -/
def initH2 : Word := 0x0EE1F88D
/-- The initialization constant H3 (R91). -/
def initH3 : Word := 0x0A4B0B65
/-- The initialization constant H4 (R91). -/
def initH4 : Word := 0x350798D7
/-- The initialization constant H5 (R91). -/
def initH5 : Word := 0x2AE59A2F

/-- `SeedExpand(seed)`, line by line; the second term of `h1` rotates `s1`, as the rule insists (R90, U3). -/
def seedExpand (seed : Seed) : Vector Word 6 :=
  let s1 := seedLow seed
  let s2 := seedHigh seed
  let h0 := s1 + initH0 + rotl s1 12
  let h1 := s2 + initH1 + rotl s1 12
  let h2 := rotl s1 30 ^^^ (h0 + initH2 + h1)
  let h3 := rotl s2 30 ^^^ (h1 + initH3 + h2)
  let h4 := (rotl h2 30 + ~~~h0 + initH4) ^^^ s1 ^^^ s2
  let h5 := (rotl h3 30 + ~~~h1 + initH5) ^^^ s1 ^^^ s2
  #v[h0, h1, h2, h3, h4, h5]

/-- SETSEED (R92): refused in ABSORB, elsewhere SEED and SEED_VALID are written and PHASE and ERR are kept. -/
def execSetseed (seed : Seed) (s : State) : Result :=
  if s.phase = .absorb then .next (raiseError .ePhase s)
  else .next (respondOk [] { s with seed := seed, seedValid := true })

/-- START (R93): needs a seed, is legal in every phase. -/
def execStart (s : State) : Result :=
  if s.seedValid then .next (respondOk [] (openComputation (seedExpand s.seed) s))
  else .next (raiseError .ePhase s)

end Sys2Proof.Machine
end

