-- ==== Sys2Proof/Machine/Dispatch.lean ====
section
/-! DEFINITION. The dispatch of the command step (spec/45_control.md R172): one arm per command. -/

namespace Sys2Proof.Machine

def exec (i : Instr) (s : State) : Host.Outcome State Fault Refusal :=
  match i with
  | .setseed seed => Sys2Proof.Machine.execSetseed seed s
  | .start => Sys2Proof.Machine.execStart s
  | .write data => Sys2Proof.Machine.execWrite data s
  | .finish => Sys2Proof.Machine.execFinish s
  | .readb => Sys2Proof.Machine.execReadb s
  | .readh => Sys2Proof.Machine.execReadh s
  | .status => Sys2Proof.Machine.execStatus s
  | .abort => Sys2Proof.Machine.execAbort s

end Sys2Proof.Machine
end

