-- ==== Sys2Proof/Machine/Step.lean ====
section
/-! DEFINITION. The step of the engine: one input of its queue (spec/45_control.md R172, spec/70_reset_and_hazards.md R210, R220). -/

namespace Sys2Proof.Machine

/-- One frame, decoded and run: the checks of opcode and length come first and end in error entry (R172, R188, R189). -/
def stepFrame (f : Frame) (s : State) : Result :=
  match decodeFrame f with
  | .ok i => exec i s
  | .error e => .next (raiseError e s)

/-- One step: with no input the engine waits and keeps all its state (R220); an assertion of reset resets it (R210); a frame
is taken from the port and run (R70, R172). -/
def step (s : State) : Host.Outcome State Fault Refusal :=
  match s.inq with
  | [] => .next s
  | .reset _ :: rest => .next (resetEngine { s with inq := rest })
  | .frame f :: rest => stepFrame f { s with inq := rest }

/-- The table's word as the next frame at the command port, so that the next step takes it (log 11). -/
def State.withFetchWord (s : State) (nbits w : Nat) : State :=
  match tableFrame nbits w with
  | none => s
  | some f => { s with inq := .frame f :: s.inq }

end Sys2Proof.Machine
end

