-- ==== Sys2Proof/Machine/Assembler.lean ====
section
/-! DEFINITION. The textual form of the commands (spec/30_encoding.md R80) and the pseudo-instructions (R81). -/

namespace Sys2Proof.Machine

/-- The value of a hex digit: its place in the alphabet the engine itself writes (R82); small letters count as capitals
(log 13). -/
def hexDigitVal (c : Char) : Option Nat := (hexValue c.toUpper).map BitVec.toNat

/-- The value of a decimal digit: a hex digit below ten. -/
def decDigit (c : Char) : Option Nat := (hexDigitVal c).filter (· < 10)

/-- The number a list of digits writes, most significant first. -/
def digitsFrom (base : Nat) (digit : Char → Option Nat) : Nat → List Char → Option Nat
  | n, [] => some n
  | n, c :: cs =>
    match digit c with
    | some d => digitsFrom base digit (base * n + d) cs
    | none => none

/-- A natural number, decimal or with 0x in front. -/
def parseNat : List Char → Option Nat
  | [] => none
  | '0' :: 'x' :: c :: cs => digitsFrom 16 hexDigitVal 0 (c :: cs)
  | cs => digitsFrom 10 decDigit 0 cs

/-- The integer operand of SETSEED, in -2^63 .. 2^64 - 1 (R80). -/
def parseInt (cs : List Char) : Option Int :=
  match cs with
  | '-' :: ds =>
    match parseNat ds with
    | some n => if n ≤ 2 ^ 63 then some (-(n : Int)) else none
    | none => none
  | ds =>
    match parseNat ds with
    | some n => if n < 2 ^ 64 then some (n : Int) else none
    | none => none

/-- One byte of two hex digits. -/
def parseByte : List Char → Option Byte
  | [c, d] =>
    match hexDigitVal c, hexDigitVal d with
    | some hi, some lo => some (BitVec.ofNat 8 (16 * hi + lo))
    | _, _ => none
  | _ => none

/-- The words of a line: maximal runs without a space. -/
def lineWords : List Char → List Char → List (List Char)
  | [], [] => []
  | [], acc => [acc.reverse]
  | ' ' :: cs, [] => lineWords cs []
  | ' ' :: cs, acc => acc.reverse :: lineWords cs []
  | c :: cs, acc => lineWords cs (c :: acc)

/-- The bytes of a quoted string, up to its closing quote, which ends the line; ASCII only (R80). -/
def quotedBytes : List Char → Option (List Byte)
  | [] => none
  | '"' :: cs => if cs.isEmpty then some [] else none
  | c :: cs =>
    match quotedBytes cs with
    | some bs => if c.toNat < 128 then some (BitVec.ofNat 8 c.toNat :: bs) else none
    | none => none

/-- The hex bytes of a WRITE line, or one byte repeated, `00*128` (R80). -/
def hexBytes (ws : List (List Char)) : Option (List Byte) :=
  match ws with
  | [c :: d :: '*' :: ds] =>
    match parseByte [c, d], digitsFrom 10 decDigit 0 ds with
    | some b, some n => if ds.isEmpty then none else some (List.replicate n b)
    | _, _ => none
  | _ => ws.mapM parseByte

/-- One line of the assembler: the mnemonic in upper case, the operands after a space (R80). -/
def assembleLine (line : List Char) : Option Instr :=
  match line with
  | 'W' :: 'R' :: 'I' :: 'T' :: 'E' :: ' ' :: '"' :: cs => (quotedBytes cs).map .write
  | _ =>
    match lineWords line [] with
    | [['S', 'E', 'T', 'S', 'E', 'E', 'D'], v] => (parseInt v).map fun x => .setseed (seedOfInt x)
    | [['S', 'T', 'A', 'R', 'T']] => some .start
    | ['W', 'R', 'I', 'T', 'E'] :: v :: vs => (hexBytes (v :: vs)).map .write
    | [['F', 'I', 'N', 'I', 'S', 'H']] => some .finish
    | [['R', 'E', 'A', 'D', 'B']] => some .readb
    | [['R', 'E', 'A', 'D', 'H']] => some .readh
    | [['S', 'T', 'A', 'T', 'U', 'S']] => some .status
    | [['A', 'B', 'O', 'R', 'T']] => some .abort
    | _ => none

/-- `new_hasher(seed)` as a command sequence, on an engine of its own (R81). -/
def newHasher (seed : Int) : List Instr := [.setseed (seedOfInt seed)]

/-- `hash_to_bytes` of an input handed over in pieces (R81); no piece for the empty input. -/
def hashToBytes (pieces : List (List Byte)) : List Instr := .start :: (pieces.map .write ++ [.finish, .readb])

/-- `hash_to_hex_string` of an input handed over in pieces (R81). -/
def hashToHexString (pieces : List (List Byte)) : List Instr := .start :: (pieces.map .write ++ [.finish, .readh])

end Sys2Proof.Machine
end

