-- ==== Sys2Proof/Machine/System.lean ====
section
/-! DEFINITION. Several engines (spec/10_state.md R36, spec/60_exceptions.md R194): the product of independent engines, one of
which takes a step at a time. Engines have no identifiers; the position in the list is the observer's. -/

namespace Sys2Proof.Machine

/-- A system of engines. -/
abbrev Engines := List State

/-- Engine `k` takes one step; the others keep their state (R36). Where there is no engine `k` nothing happens. -/
def stepEngine (k : Nat) (es : Engines) : Host.Outcome Engines Fault Refusal :=
  match es[k]? with
  | none => .next es
  | some s =>
    match step s with
    | .next t => .next (es.set k t)
    | .fault r => .fault r
    | .refused r => .refused r

end Sys2Proof.Machine
end

