-- ==== Sys2Proof/Machine/Message.lean ====
section
/-! DEFINITION. The engine as a function of the whole message (spec/41_framer.md R108): the blocks of a message, their
compressions, the digest, and the engine seen at that level. It gives no instruction its meaning: statements compare the
machine with it. -/

namespace Sys2Proof.Machine

/-- A block: exactly 128 bytes (spec/10_state.md R25). -/
abbrev Block := Vector Byte 128

/-- Message bytes `128 * i .. 128 * i + 127` (R108). -/
def fullBlock (m : List Byte) (i : Nat) : Block := Vector.ofFn fun o : Fin 128 => m.getD (128 * i + o.val) 0

/-- The one padded block of a tail of at most 122 bytes, byte by byte as laid out in spec/20_memory.md R55. -/
def singleBlock (t : List Byte) : Block :=
  Vector.ofFn fun o : Fin 128 =>
    if o.val < t.length then t.getD o.val 0
    else if o.val = t.length + 1 then 0x80
    else if o.val = 124 then BitVec.ofNat 8 t.length
    else 0

/-- The first block of the spill of a tail of 123 to 127 bytes, in the net form of R104: for 127 bytes no offset of the block
is the marker's (R105). -/
def spillBlock1 (t : List Byte) : Block :=
  Vector.ofFn fun o : Fin 128 =>
    if o.val < t.length then t.getD o.val 0 else if o.val = t.length + 1 then 0x80 else 0

/-- The second block of the spill, in the net form of R104. -/
def spillBlock2 (size : Nat) : Block :=
  Vector.ofFn fun o : Fin 128 => if o.val = 124 then BitVec.ofNat 8 size else 0

/-- `Blocks(m)` (R108). -/
def blocks (m : List Byte) : List Block :=
  if m.length = 0 then [singleBlock []]
  else
    let q := m.length / 128
    let t := m.length % 128
    let full := (List.range q).map (fullBlock m)
    let tail := m.drop (128 * q)
    if t = 0 then full
    else if t < 123 then full ++ [singleBlock tail]
    else full ++ [spillBlock1 tail, spillBlock2 t]

/-- One block folded into the State (R108, spec/43_compressor.md R143). -/
def compressBlock (wr : Wiring) (h : Vector Word 6) (b : Block) : Vector Word 6 :=
  compressH wr h fun o : Fin 64 => b[o.val]

/-- The digest State of a message under a seed (R108). -/
def digestState (wr : Wiring) (seed : Seed) (m : List Byte) : Vector Word 6 :=
  (blocks m).foldl (compressBlock wr) (seedExpand seed)

/-- FILL after a message of `n` bytes under the lazy flush (R101): 0 for none, else in 1..128. -/
def tailLength (n : Nat) : Nat := if n = 0 then 0 else (n - 1) % 128 + 1

/-- H while the message so far is `m`: the full blocks before the buffered tail have been compressed (R101, R33). -/
def absorbedState (wr : Wiring) (seed : Seed) (m : List Byte) : Vector Word 6 :=
  ((List.range ((m.length - tailLength m.length) / 128)).map (fullBlock m)).foldl (compressBlock wr) (seedExpand seed)

/-- The engine seen as a hasher of messages: the seed loaded, the seed and the bytes of the computation opened last, and the
control registers. -/
structure HashView where
  seed : Option Seed
  key : Seed
  msg : List Byte
  phase : Phase
  err : Byte
  fill : Nat
  deriving DecidableEq, Repr

/-- The view after reset (spec/10_state.md R34). -/
def HashView.reset : HashView := ⟨none, 0, [], .idle, 0, 0⟩

/-- Error entry on the view (R189). -/
def HashView.fail (e : ErrCode) (v : HashView) : HashView × Response :=
  ({ v with err := errByte e, phase := .failed }, ⟨errByte e, []⟩)

/-- A command on the view: the phase table (spec/10_state.md R37) and the digest as a function of seed and message. -/
def HashView.run (wr : Wiring) (order : HexOrder) (i : Instr) (v : HashView) : HashView × Response :=
  match i with
  | .setseed x => if v.phase = .absorb then v.fail .ePhase else ({ v with seed := some x }, ⟨okCode, []⟩)
  | .start =>
    match v.seed with
    | none => v.fail .ePhase
    | some x => ({ v with key := x, msg := [], phase := .absorb, err := 0, fill := 0 }, ⟨okCode, []⟩)
  | .write d =>
    if v.phase = .absorb then
      ({ v with msg := v.msg ++ d, fill := tailLength (v.msg ++ d).length }, ⟨okCode, []⟩)
    else v.fail .ePhase
  | .finish => if v.phase = .absorb then ({ v with phase := .done, fill := 0 }, ⟨okCode, []⟩) else v.fail .ePhase
  | .readb =>
    if v.phase = .done then (v, ⟨okCode, toBytes (digestState wr v.key v.msg)⟩) else v.fail .ePhase
  | .readh =>
    if v.phase = .done then (v, ⟨okCode, (toHex order (digestState wr v.key v.msg)).map asciiByte⟩) else v.fail .ePhase
  | .status => (v, ⟨okCode, [v.phase.byte, v.err, BitVec.ofNat 8 v.fill, statusFlags v.seed.isSome]⟩)
  | .abort => ({ v with err := errByte .eIo, phase := .failed }, ⟨okCode, []⟩)

/-- A frame on the view (spec/45_control.md R172). -/
def HashView.frame (wr : Wiring) (order : HexOrder) (f : Frame) (v : HashView) : HashView × Response :=
  match decodeFrame f with
  | .ok i => v.run wr order i
  | .error e => v.fail e

end Sys2Proof.Machine
end

