-- ==== Sys2Proof/Safety.lean ====
section
/-! DEFINITION. What a safe run is: the invariant of the engine's states, the runs, and the relation between the engine and
the hasher of messages it implements. -/

namespace Sys2Proof.Machine

/-- The invariant of every state the engine reaches. -/
structure Inv (s : State) : Prop where
  /-- FILL is in 0..128 (spec/10_state.md R26). -/
  fill_le : s.fill.toNat ≤ 128
  /-- BLK is in its canonical form, inside its 128 bytes (R25, R50). -/
  blk_wf : s.blk.wf = true
  /-- ERR holds 0 or one of the four codes (R28, spec/60_exceptions.md R180). -/
  err_le : s.err.toNat ≤ 4
  /-- ERR is 0 exactly outside FAILED (R190). -/
  err_zero : s.err = 0 ↔ s.phase ≠ .failed
  /-- A computation is open or finished only under a seed (R29, R37). -/
  seeded : s.phase = .absorb ∨ s.phase = .done → s.seedValid = true
  /-- Outside ABSORB and FAILED the buffer counts as empty (R34, spec/41_framer.md R102). -/
  fill_zero : s.phase = .idle ∨ s.phase = .done → s.fill = 0
  /-- In ABSORB the FILL first bytes of BLK have been written (R26, R35). -/
  tail_written : s.phase = .absorb → ∀ o : Nat, o < s.fill.toNat → (s.blk.read o).isSome = true

/-- No error since the last START or reset (spec/60_exceptions.md R190). -/
def NoError (s : State) : Prop := s.phase ≠ .failed

/-- Commands run one after another, as the engine runs the frames they come in (spec/45_control.md R172). -/
def execAll : List Instr → State → Result
  | [], s => .next s
  | i :: is, s => andThen (exec i s) (execAll is)

/-- A frame that is a START with nothing after its opcode: the only command that leaves FAILED (R191). -/
def isStart (f : Frame) : Bool := f.opcode == 0x02 && f.payload.isEmpty

/-- The engine in state `s` carries out the hashing that the view `v` describes. -/
structure Implements (s : State) (v : HashView) : Prop where
  seed_valid : s.seedValid = v.seed.isSome
  seed_eq : ∀ x, v.seed = some x → s.seed = x
  phase_eq : s.phase = v.phase
  err_eq : s.err = v.err
  fill_eq : s.fill.toNat = v.fill
  blk_wf : s.blk.wf = true
  absorb_fill : v.phase = .absorb → v.fill = tailLength v.msg.length
  absorb_h : v.phase = .absorb → s.h = absorbedState Config.wiring v.key v.msg
  absorb_tail : v.phase = .absorb → ∀ o : Nat, o < v.fill → s.blk.read o = v.msg[v.msg.length - v.fill + o]?
  done_h : v.phase = .done → s.h = digestState Config.wiring v.key v.msg

end Sys2Proof.Machine
end

