-- ==== Sys2Proof/Certificates/Slice0/Obligations.lean ====
section
/-! DEFINITION. The statements about the engine. The tables they compare it with are written again here from the spec's own
tables, under Sys2Proof.Spec. -/

open Sys2Proof Sys2Proof.Machine

namespace Sys2Proof.Spec

/-- Byte 0 of a frame as a command (spec/30_encoding.md R71). -/
def opOf (op : Byte) : Option Op :=
  if op = 0x01 then some .setseed
  else if op = 0x02 then some .start
  else if op = 0x03 then some .write
  else if op = 0x04 then some .finish
  else if op = 0x05 then some .readb
  else if op = 0x06 then some .readh
  else if op = 0x07 then some .status
  else if op = 0x08 then some .abort
  else none

/-- The frame length each command needs (R71, R78). -/
def legalLength (op : Op) (n : Nat) : Bool :=
  match op with
  | .setseed => decide (n = 9)
  | .write => decide (2 ≤ n) && decide (n ≤ 4097)
  | _ => decide (n = 1)

/-- The cells of the phase table (spec/10_state.md R37): the phase after an accepted command, none where the cell is
"FAILED, E_PHASE". The seed condition of START is added where the table is used. -/
def cell : Op → Phase → Option Phase
  | .setseed, .idle => some .idle
  | .setseed, .absorb => none
  | .setseed, .done => some .done
  | .setseed, .failed => some .failed
  | .start, _ => some .absorb
  | .write, .absorb => some .absorb
  | .write, _ => none
  | .finish, .absorb => some .done
  | .finish, _ => none
  | .readb, .done => some .done
  | .readb, _ => none
  | .readh, .done => some .done
  | .readh, _ => none
  | .status, p => some p
  | .abort, _ => some .failed

/-- The payload length of the OK answer (R74 to R76). -/
def okPayload : Op → Nat
  | .readb => 24
  | .readh => 48
  | .status => 4
  | _ => 0

/-- ERR after an accepted command (R28): 0 for START, E_IO for ABORT, else kept. -/
def okErr (op : Op) (err : Byte) : Byte :=
  match op with
  | .start => 0x00
  | .abort => 0x04
  | _ => err

/-- What a frame makes of the phase, the response code, ERR and the payload length, in the order of the checks (R37,
spec/60_exceptions.md R188). -/
def outcome (f : Frame) (s : State) : Phase × Byte × Byte × Nat :=
  match opOf f.opcode with
  | none => (.failed, 0x01, 0x01, 0)
  | some op =>
    if legalLength op (f.payload.length + 1) then
      match (if op = .start ∧ s.seedValid = false then none else cell op s.phase) with
      | none => (.failed, 0x03, 0x03, 0)
      | some p => (p, 0x00, okErr op s.err, okPayload op)
    else (.failed, 0x02, 0x02, 0)

/-- The cases in which a command answers E_PHASE (spec/60_exceptions.md R183). -/
def phaseError (i : Instr) (s : State) : Prop :=
  match i with
  | .setseed _ => s.phase = .absorb
  | .start => s.seedValid = false
  | .write _ => s.phase = .idle ∨ s.phase = .done ∨ s.phase = .failed
  | .finish => s.phase = .idle ∨ s.phase = .done ∨ s.phase = .failed
  | .readb => s.phase = .idle ∨ s.phase = .absorb ∨ s.phase = .failed
  | .readh => s.phase = .idle ∨ s.phase = .absorb ∨ s.phase = .failed
  | .status => False
  | .abort => False

/-- The 192 updates of a compression in order, as triples of round, iteration and position: update number n (R130, R143). -/
def updateOrder : List (Fin 4 × Fin 8 × Fin 6) :=
  List.ofFn fun n : Fin 192 =>
    (⟨n.val / 48, by omega⟩, ⟨n.val / 6 % 8, Nat.mod_lt _ (by decide)⟩, ⟨n.val % 6, Nat.mod_lt _ (by decide)⟩)

/-- How an accepted FINISH ends after its last compression: FILL 0, PHASE DONE, the answer OK (spec/41_framer.md R102). -/
def closed (t : State) : Result := .next { t with fill := 0x00, phase := .done, out := t.out ++ [⟨0x00, []⟩] }

end Sys2Proof.Spec

open Sys2Proof.Spec

/-! ### Encoding -/

/-- Decoding the frame of any well-formed command gives it back, with every operand (spec/30_encoding.md R71 to R73). -/
def Obligations.DecodeEncodeRoundTrip : Prop :=
  ∀ i : Instr, i.wf = true → decode (encode i) = .ok i

/-- Every frame the decoder accepts is the frame of the command it reads, which is well formed (R71 to R73, R78). -/
def Obligations.EncodeDecodeRoundTrip : Prop :=
  ∀ (bs : List Byte) (i : Instr), decode bs = .ok i → i.wf = true ∧ encode i = bs

/-- Every non-empty byte sequence is exactly one of a command, E_ILLEGAL, E_FORMAT, by its first byte and its length (R79). -/
def Obligations.DecoderIsThreeWay : Prop :=
  ∀ (op : Byte) (p : List Byte),
    (decode (op :: p) = .error .illegal ↔ opOf op = none) ∧
    (decode (op :: p) = .error .format ↔ ∃ o, opOf op = some o ∧ legalLength o (p.length + 1) = false) ∧
    ((∃ i, decode (op :: p) = .ok i) ↔ ∃ o, opOf op = some o ∧ legalLength o (p.length + 1) = true)

/-- Words written out from the opcode map and the seed payload's byte order (R71, R72, R73). -/
def Obligations.WrittenFramesDecode : Prop :=
  decode [0x01, 0x2A, 0, 0, 0, 0, 0, 0, 0] = .ok (.setseed 42) ∧
  decode [0x01, 0xEF, 0xCD, 0xAB, 0x89, 0x67, 0x45, 0x23, 0x01] = .ok (.setseed 0x0123456789ABCDEF) ∧
  decode [0x02] = .ok .start ∧
  decode [0x03, 0x61, 0x62, 0x63] = .ok (.write [0x61, 0x62, 0x63]) ∧
  decode [0x04] = .ok .finish ∧ decode [0x05] = .ok .readb ∧ decode [0x06] = .ok .readh ∧
  decode [0x07] = .ok .status ∧ decode [0x08] = .ok .abort ∧
  decode [0x00] = .error .illegal ∧ decode [0x09, 0x00] = .error .illegal ∧
  decode [0x03] = .error .format ∧ decode [0x02, 0x00] = .error .format

/-- A signed seed reaches the engine as its two's-complement pattern (R72, R80). -/
def Obligations.SeedOfIntegerIsTwosComplement : Prop :=
  ∀ v : Int, -2 ^ 63 ≤ v → v < 2 ^ 64 → ((seedOfInt v).toNat : Int) = v % 2 ^ 64

/-! ### The step -/

/-- When the next frame decodes to a command, the step takes the frame from the port and is the command's meaning
(spec/45_control.md R172, spec/30_encoding.md R70). -/
def Obligations.StepRunsDecodedCommand : Prop :=
  ∀ (s : State) (f : Frame) (rest : List Input) (i : Instr),
    s.inq = .frame f :: rest → decode f.bytes = .ok i → step s = exec i { s with inq := rest }

/-- A frame whose first byte is no opcode is answered E_ILLEGAL whatever its length and the phase, and enters FAILED (R77,
spec/60_exceptions.md R181). -/
def Obligations.StepAnswersIllegalOpcode : Prop :=
  ∀ (s : State) (f : Frame) (rest : List Input),
    s.inq = .frame f :: rest → (f.opcode = 0x00 ∨ 0x09 ≤ f.opcode.toNat) →
      step s = .next { s with inq := rest, err := 0x01, phase := .failed, out := s.out ++ [⟨0x01, []⟩] }

/-- A known opcode with a wrong frame length is answered E_FORMAT in every phase, and enters FAILED with no other effect (R78,
spec/60_exceptions.md R182). -/
def Obligations.StepAnswersWrongLength : Prop :=
  ∀ (s : State) (f : Frame) (rest : List Input),
    s.inq = .frame f :: rest →
    ((f.opcode = 0x01 ∧ f.length ≠ 9) ∨ (f.opcode = 0x03 ∧ (f.length = 1 ∨ 4097 < f.length)) ∨
      ((f.opcode = 0x02 ∨ f.opcode = 0x04 ∨ f.opcode = 0x05 ∨ f.opcode = 0x06 ∨ f.opcode = 0x07 ∨ f.opcode = 0x08) ∧
        f.length ≠ 1)) →
      step s = .next { s with inq := rest, err := 0x02, phase := .failed, out := s.out ++ [⟨0x02, []⟩] }

/-- Without a frame the engine waits and keeps all its state (spec/70_reset_and_hazards.md R220; the queue is log 1). -/
def Obligations.StepWaitsWithoutInput : Prop :=
  ∀ s : State, s.inq = [] → step s = .next s

/-- Reset abandons a command in progress without a response and leaves the control registers of R34 and an empty buffer; the
ports are those of log 10 (spec/70_reset_and_hazards.md R210, U11). -/
def Obligations.ResetInputResets : Prop :=
  ∀ (s : State) (abandoned : Option Frame) (rest : List Input),
    s.inq = .reset abandoned :: rest →
      ∃ t, step s = .next t ∧ t.phase = .idle ∧ t.err = 0x00 ∧ t.seedValid = false ∧ t.fill = 0x00 ∧
        (∀ o, t.blk.read o = none) ∧ t.inq = rest ∧ t.out = s.out

/-- The state after reset: the control registers of R34, no byte of BLK written, nothing at the ports. -/
def Obligations.ResetStateControlRegisters : Prop :=
  State.reset.phase = .idle ∧ State.reset.err = 0x00 ∧ State.reset.seedValid = false ∧ State.reset.fill = 0x00 ∧
    (∀ o, State.reset.blk.read o = none) ∧ State.reset.inq = [] ∧ State.reset.out = []

/-- The phase table: every frame in every phase leads to the phase, the response code and the ERR the table gives, with the
payload length of the answer (spec/10_state.md R37). That FINISH in ABSORB answers with FILL = 127 is the model's choice
MARKER_127 = DROP (log 8). -/
def Obligations.StepFollowsPhaseTable : Prop :=
  ∀ (s : State) (f : Frame) (rest : List Input), Inv s → s.inq = .frame f :: rest →
    ∃ t r, step s = .next t ∧ t.inq = rest ∧ t.out = s.out ++ [r] ∧
      (t.phase, r.code, t.err, r.payload.length) = outcome f s

/-- A response has a payload only where its code is OK and the command is READB (24 bytes), READH (48) or STATUS (4); the code
says which check failed, and E_IO is never one (spec/30_encoding.md R74). -/
def Obligations.ResponseShape : Prop :=
  ∀ (s t : State) (f : Frame) (rest : List Input),
    s.inq = .frame f :: rest → step s = .next t →
      ∃ r, t.out = s.out ++ [r] ∧
        (r.payload ≠ [] → r.code = 0x00) ∧
        (r.code = 0x00 → ∃ op, opOf f.opcode = some op ∧ r.payload.length = okPayload op) ∧
        (r.code = 0x01 ↔ opOf f.opcode = none) ∧
        (r.code = 0x02 ↔ ∃ op, opOf f.opcode = some op ∧ legalLength op f.length = false) ∧
        (r.code = 0x03 ↔ ∃ i, decode f.bytes = .ok i ∧ phaseError i s) ∧
        r.code.toNat ≤ 3

/-- Errors are precise: a frame answered with a code other than OK has changed ERR and PHASE and nothing else
(spec/60_exceptions.md R189). -/
def Obligations.ErrorEntryIsPrecise : Prop :=
  ∀ (s t : State) (f : Frame) (rest : List Input) (r : Response),
    s.inq = .frame f :: rest → step s = .next t → t.out = s.out ++ [r] → r.code ≠ 0x00 →
      r.payload = [] ∧ t = { s with inq := rest, err := r.code, phase := .failed, out := s.out ++ [⟨r.code, []⟩] }

/-- E_PHASE is raised in exactly the cases of R183, with the error entry of R189; in every other case a command that ends
answers OK (spec/60_exceptions.md R183). -/
def Obligations.PhaseErrorsExactly : Prop :=
  ∀ (i : Instr) (s : State),
    (phaseError i s → exec i s = .next { s with err := 0x03, phase := .failed, out := s.out ++ [⟨0x03, []⟩] }) ∧
    (¬phaseError i s → ∀ t, exec i s = .next t → ∃ p, t.out = s.out ++ [⟨0x00, p⟩])

/-! ### The commands -/

/-- SETSEED outside ABSORB loads the seed and changes nothing else (spec/40_seed.md R92). -/
def Obligations.SetseedLoadsSeed : Prop :=
  ∀ (seed : Seed) (s : State), s.phase ≠ .absorb →
    exec (.setseed seed) s = .next { s with seed := seed, seedValid := true, out := s.out ++ [⟨0x00, []⟩] }

/-- SeedExpand, line by line from the seed's halves (R90, R91). -/
def Obligations.SeedExpandLines : Prop :=
  ∀ (seed : Seed) (s1 s2 h0 h1 h2 h3 h4 h5 : Word),
    s1.toNat = seed.toNat % 2 ^ 32 → s2.toNat = seed.toNat / 2 ^ 32 →
    h0 = s1 + 0x209536F9 + rotl s1 12 →
    h1 = s2 + 0x1267A4BB + rotl s1 12 →
    h2 = rotl s1 30 ^^^ (h0 + 0x0EE1F88D + h1) →
    h3 = rotl s2 30 ^^^ (h1 + 0x0A4B0B65 + h2) →
    h4 = (rotl h2 30 + ~~~h0 + 0x350798D7) ^^^ s1 ^^^ s2 →
    h5 = (rotl h3 30 + ~~~h1 + 0x2AE59A2F) ^^^ s1 ^^^ s2 →
      seedExpand seed = #v[h0, h1, h2, h3, h4, h5]

/-- START with a seed runs the Seed Expander into H, empties the buffer, clears ERR and opens the computation, in every phase;
BLK, W and A are not written (R93). -/
def Obligations.StartOpensComputation : Prop :=
  ∀ s : State, s.seedValid = true →
    exec .start s =
      .next { s with h := seedExpand s.seed, fill := 0x00, err := 0x00, phase := .absorb, out := s.out ++ [⟨0x00, []⟩] }

/-- WRITE in ABSORB completes: FILL moves by the lazy flush, byte i lands at offset (FILL + i) mod 128, no other offset
changes, and as long as the data fits in the buffer H, A and W are untouched (spec/41_framer.md R101). -/
def Obligations.WriteAbsorbsItsBytes : Prop :=
  ∀ (s : State) (data : List Byte), Inv s → s.phase = .absorb → 1 ≤ data.length →
    ∃ t, exec (.write data) s = .next t ∧
      t.fill.toNat = (s.fill.toNat + data.length - 1) % 128 + 1 ∧
      (∀ i, i < data.length → data.length ≤ i + 128 → t.blk.read ((s.fill.toNat + i) % 128) = data[i]?) ∧
      (∀ o, (∀ i, i < data.length → o ≠ (s.fill.toNat + i) % 128) → t.blk.read o = s.blk.read o) ∧
      (s.fill.toNat + data.length ≤ 128 → t.h = s.h ∧ t.a = s.a ∧ t.w = s.w) ∧
      t.phase = .absorb ∧ t.err = s.err ∧ t.seed = s.seed ∧ t.seedValid = s.seedValid ∧ t.inq = s.inq ∧
      t.out = s.out ++ [⟨0x00, []⟩]

/-- The lazy flush, byte by byte: a byte that finds the buffer full has it compressed first, with the compression's W, A and H
kept, and lands at offset 0; any other byte is only stored at FILL (R101). -/
def Obligations.WriteByteFlushesFullBuffer : Prop :=
  ∀ (s : State) (b : Byte) (m : Memory), Inv s → s.phase = .absorb → m.wf = true →
    m.read (s.fill.toNat % 128) = some b → (∀ o, o ≠ s.fill.toNat % 128 → m.read o = s.blk.read o) →
    (s.fill = 128 →
      exec (.write [b]) s =
        andThen (compress Config.wiring s) fun t => .next { t with blk := m, fill := 1, out := t.out ++ [⟨0x00, []⟩] }) ∧
    (s.fill ≠ 128 →
      exec (.write [b]) s = .next { s with blk := m, fill := s.fill + 1, out := s.out ++ [⟨0x00, []⟩] })

/-- The frame of WRITE in every state: whenever it answers a next state, the seed registers and the queue are as before, the
control registers change only by error entry, and of BLK only the offsets the data bytes go to (R101, R189). -/
def Obligations.WriteFrame : Prop :=
  ∀ (s t : State) (data : List Byte), exec (.write data) s = .next t →
    t.seed = s.seed ∧ t.seedValid = s.seedValid ∧ t.inq = s.inq ∧
    (s.phase = .absorb → t.phase = s.phase ∧ t.err = s.err ∧
      ∀ o, (∀ i, i < data.length → o ≠ (s.fill.toNat + i) % 128) → t.blk.read o = s.blk.read o) ∧
    (s.phase ≠ .absorb → t.h = s.h ∧ t.a = s.a ∧ t.w = s.w ∧ t.fill = s.fill ∧ ∀ o, t.blk.read o = s.blk.read o)

/-- FINISH in ABSORB completes: H is the fold of the compression over the one or two blocks of the buffered tail, FILL becomes
0 and PHASE becomes DONE (R102 to R107). -/
def Obligations.FinishFoldsTailBlocks : Prop :=
  ∀ (s : State) (tail : List Byte), Inv s → s.phase = .absorb → tail.length = s.fill.toNat →
    (∀ o, o < tail.length → s.blk.read o = tail[o]?) →
    ∃ t, exec .finish s = .next t ∧
      t.h = (blocks tail).foldl (compressBlock Config.wiring) s.h ∧
      t.fill = 0x00 ∧ t.phase = .done ∧ t.err = s.err ∧ t.seed = s.seed ∧ t.seedValid = s.seedValid ∧ t.inq = s.inq ∧
      t.out = s.out ++ [⟨0x00, []⟩]

/-- What FINISH leaves in BLK, offset by offset: a full block as it was; the padded block of R55 for a tail of at most 122
bytes; the second spill block for 123 to 127 (R103 to R106, spec/20_memory.md R55). That FINISH answers with FILL = 127 is the
model's choice MARKER_127 = DROP (log 8). -/
def Obligations.FinishLeavesPaddedBlock : Prop :=
  ∀ s : State, Inv s → s.phase = .absorb →
    ∃ t, exec .finish s = .next t ∧ ∀ o,
      t.blk.read o =
        if s.fill.toNat = 128 then s.blk.read o
        else if s.fill.toNat ≤ 122 then
          if o < s.fill.toNat then s.blk.read o
          else if o = s.fill.toNat then some 0x00
          else if o = s.fill.toNat + 1 then some 0x80
          else if o < 124 then some 0x00
          else if o = 124 then some (BitVec.ofNat 8 s.fill.toNat)
          else if o < 128 then some 0x00
          else s.blk.read o
        else if o = 124 then some (BitVec.ofNat 8 s.fill.toNat)
        else if o < 128 then some 0x00
        else s.blk.read o

/-- The first spill block, offset by offset, for every buffer; and what FINISH compresses, from every state with the invariant
in ABSORB: the full buffer as it stands, the one padded block of R55, or the two spill blocks one after the other, with the
compression's W, A and H kept (R102 to R107). That the marker is dropped and FINISH goes on with FILL = 127 is the model's choice
MARKER_127 = DROP (log 8). -/
def Obligations.FinishCompressesPaddedBuffers : Prop :=
  (∀ (size : Nat) (m : Memory) (o : Nat), 123 ≤ size → size ≤ 127 →
    (padSpillFirst size m).read o =
      if o < size then m.read o
      else if o = size + 1 ∧ size + 1 < 128 then some 0x80
      else if o < 128 then some 0x00
      else m.read o) ∧
  ∀ s : State, Inv s → s.phase = .absorb →
    (s.fill.toNat = 128 → exec .finish s = andThen (compress Config.wiring s) closed) ∧
    (∀ m : Memory, s.fill.toNat ≤ 122 → m.wf = true →
      (∀ o, o < 128 → m.read o =
        if o < s.fill.toNat then s.blk.read o
        else if o = s.fill.toNat + 1 then some 0x80
        else if o = 124 then some s.fill
        else some 0x00) →
      exec .finish s = andThen (compress Config.wiring { s with blk := m }) closed) ∧
    (∀ m m' : Memory, 123 ≤ s.fill.toNat → s.fill.toNat ≤ 127 → m.wf = true → m'.wf = true →
      (∀ o, o < 128 → m.read o =
        if o < s.fill.toNat then s.blk.read o else if o = s.fill.toNat + 1 then some 0x80 else some 0x00) →
      (∀ o, o < 128 → m'.read o = if o = 124 then some s.fill else some 0x00) →
      exec .finish s =
        andThen (compress Config.wiring { s with blk := m }) fun t =>
          andThen (compress Config.wiring { t with blk := m' }) closed)

/-- The frame of FINISH in every state: whenever it answers a next state, the seed registers and the queue are as before, and
of BLK only the padded offsets change: none for a full block, those from FILL on for one padded block, those of the whole
buffer for the spill (R102 to R106, R189). -/
def Obligations.FinishFrame : Prop :=
  ∀ s t : State, exec .finish s = .next t →
    t.seed = s.seed ∧ t.seedValid = s.seedValid ∧ t.inq = s.inq ∧
    (s.phase = .absorb → t.err = s.err ∧ ∀ o,
      (s.fill.toNat = 128 ∨ (s.fill.toNat < 123 ∧ o < s.fill.toNat) ∨ 128 ≤ o) → t.blk.read o = s.blk.read o) ∧
    (s.phase ≠ .absorb → t.h = s.h ∧ t.a = s.a ∧ t.w = s.w ∧ t.fill = s.fill ∧ ∀ o, t.blk.read o = s.blk.read o)

/-- MARKER_127: under REFUSE the one case without an outcome is FINISH with FILL = 127, every other FILL is as under DROP, and
the model's own choice is DROP (R105; log 8). -/
def Obligations.Marker127Alternatives : Prop :=
  Config.marker127 = .drop ∧
  ∀ (wr : Wiring) (s : State),
    (s.phase = .absorb → s.fill = 127 → finishWith wr .refuse s = .refused .marker127) ∧
    (s.fill ≠ 127 → finishWith wr .refuse s = finishWith wr .drop s)

/-- READB in DONE answers the digest's bytes and changes nothing else (spec/44_formatter.md R162). -/
def Obligations.ReadbAnswersDigest : Prop :=
  ∀ s : State, s.phase = .done → exec .readb s = .next { s with out := s.out ++ [⟨0x00, toBytes s.h⟩] }

/-- READH in DONE answers the ASCII codes of the hex string and changes nothing else, for either digit order; the model's own
order is BYTEWISE (R163; log 7). -/
def Obligations.ReadhAnswersHexString : Prop :=
  Config.hexOrder = .bytewise ∧
  ∀ s : State, s.phase = .done →
    exec .readh s = .next { s with out := s.out ++ [⟨0x00, (toHex Config.hexOrder s.h).map asciiByte⟩] } ∧
    ∀ order, readhWith order s = .next { s with out := s.out ++ [⟨0x00, (toHex order s.h).map asciiByte⟩] }

/-- STATUS in every phase answers PHASE, ERR, FILL and SEED_VALID, one byte each, and changes nothing else
(spec/45_control.md R170, spec/30_encoding.md R75). -/
def Obligations.StatusAnswersControlRegisters : Prop :=
  ∀ s : State, ∃ p f : Byte,
    exec .status s = .next { s with out := s.out ++ [⟨0x00, [p, s.err, s.fill, f]⟩] } ∧
    (s.phase = .idle → p = 0x00) ∧ (s.phase = .absorb → p = 0x01) ∧ (s.phase = .done → p = 0x02) ∧
    (s.phase = .failed → p = 0x03) ∧
    f.getLsbD 0 = s.seedValid ∧ ∀ i, 1 ≤ i → f.getLsbD i = false

/-- ABORT in every phase records E_IO, enters FAILED, answers OK and keeps everything else (R171). -/
def Obligations.AbortEntersFailed : Prop :=
  ∀ s : State, exec .abort s = .next { s with err := 0x04, phase := .failed, out := s.out ++ [⟨0x00, []⟩] }

/-- The frame of the commands that store nothing, in every state and with either answer: no byte of BLK, none of A and W, not
the queue; H and FILL only by START; SEED and SEED_VALID only by SETSEED; ERR and PHASE only by START, ABORT and error
entry; SETSEED, READB, READH and STATUS that are accepted leave both (R92, R93, R162, R163, R170, R171). -/
def Obligations.CommandsWithoutStoreFrame : Prop :=
  ∀ (i : Instr) (s t : State), (∀ d, i ≠ .write d) → i ≠ .finish → exec i s = .next t →
    (∀ o, t.blk.read o = s.blk.read o) ∧ t.a = s.a ∧ t.w = s.w ∧ t.inq = s.inq ∧
    (i ≠ .start → t.h = s.h ∧ t.fill = s.fill) ∧
    ((∀ x, i ≠ .setseed x) → t.seed = s.seed ∧ t.seedValid = s.seedValid) ∧
    (i ≠ .start → i ≠ .abort → ¬phaseError i s → t.phase = s.phase ∧ t.err = s.err)

/-! ### The data path -/

/-- `rotl` moves bit i to bit (i + n) mod 32, for every amount in 1..31 (spec/00_scope.md R10). -/
def Obligations.RotlMovesBits : Prop :=
  ∀ (x : Word) (n i : Nat), 1 ≤ n → n ≤ 31 → i < 32 →
    (rotl x n).getLsbD ((i + n) % 32) = x.getLsbD i ∧
    (rotl x n).toNat = (x.toNat <<< n) % 2 ^ 32 ||| x.toNat >>> (32 - n)

/-- The schedule: words 0..15 are the block's first 16 words, little-endian from bytes 0..63, words 16..31 satisfy the
recurrence over the same buffer (spec/42_scheduler.md R120, R121, spec/20_memory.md R51). -/
def Obligations.ScheduleSatisfiesRecurrence : Prop :=
  ∀ b : Fin 64 → Byte,
    (∀ (i : Nat) (h : i < 16),
      ((schedule b)[i]'(by omega)).toNat =
        (b ⟨4 * i, by omega⟩).toNat + 2 ^ 8 * (b ⟨4 * i + 1, by omega⟩).toNat + 2 ^ 16 * (b ⟨4 * i + 2, by omega⟩).toNat +
          2 ^ 24 * (b ⟨4 * i + 3, by omega⟩).toNat) ∧
    (∀ (i : Nat) (h : 16 ≤ i) (h' : i < 32),
      (schedule b)[i] =
        rotl ((schedule b)[i - 5] ^^^ (schedule b)[i - 7] ^^^ (schedule b)[i - 9] ^^^ (schedule b)[i - 13]) 1)

/-- The second spill block can be scheduled, and schedules as 32 zero words, whatever the size and whatever the buffer held
before (spec/41_framer.md R111). -/
def Obligations.SpillSecondSchedulesZero : Prop :=
  ∀ (size : Nat) (m : Memory), 123 ≤ size → size ≤ 127 →
    ∃ b, (padSpillSecond size m).scheduled = some b ∧ schedule b = Vector.replicate 32 0

/-- The four boolean functions, bit by bit (spec/43_compressor.md R131 to R134). -/
def Obligations.BooleanFunctionBits : Prop :=
  ∀ (x y z : Word) (i : Nat), i < 32 →
    (boolFn 0 x y z).getLsbD i = (z.getLsbD i && (x.getLsbD i == y.getLsbD i)) ∧
    (boolFn 1 x y z).getLsbD i = (x.getLsbD i ^^ y.getLsbD i ^^ z.getLsbD i) ∧
    (boolFn 2 x y z).getLsbD i =
      ((x.getLsbD i && y.getLsbD i) || (x.getLsbD i && z.getLsbD i) || (y.getLsbD i && z.getLsbD i)) ∧
    (boolFn 3 x y z).getLsbD i = (!z.getLsbD i || (x.getLsbD i && y.getLsbD i))

/-- The orders and rotate amounts of the updates as printed (R136, R137). -/
def Obligations.OrderAndRotateTables : Prop :=
  (List.finRange 6).map dst = [5, 4, 3, 2, 1, 0] ∧ (List.finRange 6).map tgt = [1, 5, 0, 4, 3, 2] ∧
  (∀ k, dst k ≠ tgt k) ∧
  (List.finRange 6).map (rotTable 0) = [29, 29, 27, 27, 30, 30] ∧
  (List.finRange 6).map (rotTable 1) = [22, 22, 12, 31, 18, 31] ∧
  (List.finRange 6).map (rotTable 2) = [27, 27, 28, 28, 30, 30] ∧
  (List.finRange 6).map (rotTable 3) = [26, 26, 23, 23, 15, 15]

/-- One update for every WIRING: the sum of the five addends over the old accumulators into DST[k], the rotation of TGT[k],
and no other accumulator changed (R138). -/
def Obligations.UpdateWritesTwoAccumulators : Prop :=
  ∀ (wr : Wiring) (w : Vector Word 32) (r : Fin 4) (j : Fin 8) (k : Fin 6) (a : Vector Word 6),
    (update wr w r j k a)[dst k] =
      a[dst k] + rotl a[wr.src k] (wr.shift r k).amount + boolFn r a[wr.opX k] a[wr.opY k] a[wr.opZ k]
        + w[wr.wordIdx r j k] + wr.roundConst r ∧
    (update wr w r j k a)[tgt k] = rotl a[tgt k] (rotTable r k) ∧
    ∀ i : Fin 6, i ≠ dst k → i ≠ tgt k → (update wr w r j k a)[i] = a[i]

/-- The finalization, register by register (R142, R135). -/
def Obligations.FinalizationWords : Prop :=
  ∀ h a : Vector Word 6,
    finalization h a =
      #v[h[0] + (a[0] ^^^ 0xD28146D5), h[1] + (a[1] ^^^ 0xD28146D5), h[2] + (a[2] ||| 0x8EA96F89),
        h[3] + (a[3] ||| 0x8EA96F89), h[4] + (a[4] &&& 0xD28146D5), h[5] + (a[5] ^^^ 0x71569076)]

/-- One compression, for every WIRING and every buffer whose scheduled bytes have been written: W is the schedule, A is H run
through the 192 updates in order, H is the finalization of the H before with A, and nothing else changes (R143). -/
def Obligations.CompressRunsScheduleUpdatesFinalization : Prop :=
  ∀ (wr : Wiring) (s : State) (b : Fin 64 → Byte), (∀ o : Fin 64, s.blk.read o.val = some (b o)) →
    ∃ acc : Vector Word 6,
      acc = updateOrder.foldl (fun a n => update wr (schedule b) n.1 n.2.1 n.2.2 a) s.h ∧
      compress wr s = .next { s with w := schedule b, a := acc, h := finalization s.h acc }

/-- A compression reads only offsets 0..63 of BLK, keeps BLK, and two buffers that agree there compress identically, for
every WIRING (spec/42_scheduler.md R123, spec/43_compressor.md R143). -/
def Obligations.CompressIgnoresUpperHalf : Prop :=
  ∀ (wr : Wiring) (s t : State) (m : Memory), compress wr s = .next t → (∀ o, o < 64 → m.read o = s.blk.read o) →
    t.blk = s.blk ∧ compress wr { s with blk := m } = .next { t with blk := m }

/-- The digest's bytes: byte 4i + t is bits 8t + 7 .. 8t of H[i] (spec/44_formatter.md R160). -/
def Obligations.DigestBytePlacement : Prop :=
  ∀ h : Vector Word 6, (toBytes h).length = 24 ∧
    ∀ (i : Fin 6) (t : Nat), t < 4 → (toBytes h)[4 * i.val + t]? = some (h[i].extractLsb' (8 * t) 8)

/-- HEXDIGIT(n) is the digit of n, and the hex string's characters in both digit orders with their ASCII codes (R161,
spec/30_encoding.md R82). -/
def Obligations.HexDigitPlacement : Prop :=
  (∀ n : BitVec 4,
    (n.toNat ≤ 9 → (asciiByte (hexDigit n)).toNat = 0x30 + n.toNat) ∧
    (10 ≤ n.toNat → (asciiByte (hexDigit n)).toNat = 0x41 + (n.toNat - 10))) ∧
  ∀ h : Vector Word 6,
    (∀ order, (toHex order h).length = 48 ∧ ∀ c ∈ (toHex order h).map asciiByte,
      (0x30 ≤ c.toNat ∧ c.toNat ≤ 0x39) ∨ (0x41 ≤ c.toNat ∧ c.toNat ≤ 0x46)) ∧
    (∀ (i : Fin 6) (t : Nat), t < 4 →
      (toHex .bytewise h)[8 * i.val + 2 * t]? = some (hexDigit (h[i].extractLsb' (8 * t + 4) 4)) ∧
      (toHex .bytewise h)[8 * i.val + 2 * t + 1]? = some (hexDigit (h[i].extractLsb' (8 * t) 4))) ∧
    (∀ (i : Fin 6) (d : Nat), d < 8 →
      (toHex .numeric h)[8 * i.val + d]? = some (hexDigit (h[i].extractLsb' (28 - 4 * d) 4)))

/-- The two presentations: hex-decoding the BYTEWISE string gives the bytes, and both are injective in H (R164). -/
def Obligations.HexDecodeGivesBytes : Prop :=
  (∀ h : Vector Word 6, hexDecode (toHex .bytewise h) = some (toBytes h)) ∧
  (∀ h h' : Vector Word 6, toBytes h = toBytes h' → h = h') ∧
  (∀ (order : HexOrder) (h h' : Vector Word 6), toHex order h = toHex order h' → h = h')

/-! ### The whole machine -/

/-- The invariant is kept by every step, from every state that has it. -/
def Obligations.StepKeepsInvariant : Prop :=
  ∀ s t : State, Inv s → step s = .next t → Inv t

/-- The reset state has the invariant. -/
def Obligations.ResetHasInvariant : Prop := Inv State.reset

/-- The engine is never stuck: from every state with the invariant a step answers a next state, so no unwritten byte is ever
read and FILL never leaves 0..128 (spec/45_control.md R172, spec/10_state.md R35, spec/60_exceptions.md R186). That FINISH
answers with FILL = 127 is the model's choice MARKER_127 = DROP (log 8); under REFUSE that one case has no outcome. -/
def Obligations.StepNeverStops : Prop :=
  ∀ s : State, Inv s → ∃ t, step s = .next t

/-- START with a seed is the only command that leaves FAILED, with ERR cleared and a new computation; reset leaves it to IDLE;
SETSEED, STATUS and ABORT are accepted there and stay (spec/60_exceptions.md R191). -/
def Obligations.OnlyStartOrResetLeavesFailed : Prop :=
  (∀ s t : State, s.phase = .failed → step s = .next t → t.phase ≠ .failed →
    (∃ a rest, s.inq = .reset a :: rest ∧ t.phase = .idle) ∨
    (∃ rest, s.inq = .frame ⟨0x02, []⟩ :: rest ∧ s.seedValid = true ∧ t.phase = .absorb ∧ t.err = 0x00 ∧
      t.h = seedExpand s.seed)) ∧
  (∀ (s : State) (i : Instr), s.phase = .failed → ((∃ x, i = .setseed x) ∨ i = .status ∨ i = .abort) →
    ∃ t p, exec i s = .next t ∧ t.phase = .failed ∧ t.out = s.out ++ [⟨0x00, p⟩])

/-- SEED and SEED_VALID change only by reset and by an accepted SETSEED, which loads its payload (spec/10_state.md R29). -/
def Obligations.SeedChangesOnlyBySetseed : Prop :=
  ∀ s t : State, step s = .next t → (t.seed ≠ s.seed ∨ t.seedValid ≠ s.seedValid) →
    (∃ a rest, s.inq = .reset a :: rest) ∨
    (∃ p rest, s.inq = .frame ⟨0x01, p⟩ :: rest ∧ p.length = 8 ∧ s.phase ≠ .absorb ∧ t.seedValid = true ∧
      t.seed = seedOfPayload p)

/-- H changes only by reset, START, and the compressions of WRITE and FINISH in ABSORB (spec/10_state.md R21). -/
def Obligations.DigestStateChangesOnlyByHashing : Prop :=
  ∀ s t : State, step s = .next t → t.h ≠ s.h →
    (∃ a rest, s.inq = .reset a :: rest) ∨
    (∃ rest, s.inq = .frame ⟨0x02, []⟩ :: rest) ∨
    (s.phase = .absorb ∧ ∃ p rest, s.inq = .frame ⟨0x03, p⟩ :: rest ∨ s.inq = .frame ⟨0x04, p⟩ :: rest)

/-- No digest after an error: from FAILED, after any frames none of which is START, READB and READH answer E_PHASE
(spec/60_exceptions.md R190, spec/45_control.md R171). -/
def Obligations.NoDigestUntilStart : Prop :=
  ∀ (fs : List Frame) (s : State) (rest : List Input) (op : Byte),
    s.phase = .failed → (∀ f ∈ fs, isStart f = false) → (op = 0x05 ∨ op = 0x06) →
    s.inq = fs.map .frame ++ .frame ⟨op, []⟩ :: rest →
      ∃ t, core.run (fs.length + 1) s = .next t ∧ t.phase = .failed ∧ t.out.getLast? = some ⟨0x03, []⟩ ∧
        t.out.length = s.out.length + fs.length + 1

/-- Outside DONE no answer depends on H, SEED, BLK, W or A: two engines with the same control registers and the same frame
answer alike (spec/45_control.md R170, spec/70_reset_and_hazards.md R219, spec/00_scope.md R6). -/
def Obligations.AnswersHideDataOutsideDone : Prop :=
  ∀ (s s' t t' : State) (f : Frame) (rest rest' : List Input),
    s.phase ≠ .done → s'.phase = s.phase → s'.err = s.err → s'.fill = s.fill → s'.seedValid = s.seedValid →
    s.inq = .frame f :: rest → s'.inq = .frame f :: rest' → step s = .next t → step s' = .next t' →
      ∃ r, t.out = s.out ++ [r] ∧ t'.out = s'.out ++ [r]

/-- How a message is cut into WRITEs does not matter: two sequences of WRITEs with the same bytes lead to the same state,
the answers at the port apart (spec/41_framer.md R109). -/
def Obligations.WriteChunksDoNotMatter : Prop :=
  ∀ (s : State) (c c' : List (List Byte)), Inv s → s.phase = .absorb → c.flatten = c'.flatten →
    ∃ t t', execAll (c.map .write) s = .next t ∧ execAll (c'.map .write) s = .next t' ∧ { t with out := [] } = { t' with out := [] }

/-- `hash_to_bytes` and `hash_to_hex_string`: START, WRITEs, FINISH and a READ answer the digest of the concatenated bytes
under SEED, whatever the engine held before: the fold of the compression over `Blocks(m)` from `SeedExpand(SEED)`, for every
WIRING (R108, spec/30_encoding.md R81). The characters of the hex string are those of the model's HEX_ORDER (log 7); that the
commands complete for a message of 127 bytes modulo 128 is the model's choice MARKER_127 = DROP (log 8). -/
def Obligations.HashCommandsComputeDigest : Prop :=
  ∀ (s : State) (pieces : List (List Byte)), Inv s → s.seedValid = true →
    (∃ t, execAll (hashToBytes pieces) s = .next t ∧ t.phase = .done ∧ t.h = digestState Config.wiring s.seed pieces.flatten ∧
      t.out.getLast? = some ⟨0x00, toBytes (digestState Config.wiring s.seed pieces.flatten)⟩) ∧
    (∃ t, execAll (hashToHexString pieces) s = .next t ∧ t.phase = .done ∧
      t.out.getLast? =
        some ⟨0x00, (toHex Config.hexOrder (digestState Config.wiring s.seed pieces.flatten)).map asciiByte⟩)

/-- Two engines with the same seed and the same bytes answer the same digest, whatever they held and however the bytes are
cut (spec/20_memory.md R59). That both complete for a message of 127 bytes modulo 128 is the model's choice MARKER_127 = DROP
(log 8). -/
def Obligations.SameSeedSameBytesSameDigest : Prop :=
  ∀ (s s' : State) (c c' : List (List Byte)), Inv s → Inv s' → s.seedValid = true → s'.seedValid = true →
    s.seed = s'.seed → c.flatten = c'.flatten →
    ∃ t t' r, execAll (hashToBytes c) s = .next t ∧ execAll (hashToBytes c') s' = .next t' ∧
      t.out.getLast? = some r ∧ t'.out.getLast? = some r ∧ r.code = 0x00 ∧ r.payload.length = 24

/-- The number of blocks of a message: max(1, ceil(L / 128)), and one more where 123 <= L mod 128 (R108). -/
def Obligations.BlockCount : Prop :=
  ∀ m : List Byte,
    (blocks m).length = max 1 ((m.length + 127) / 128) + (if 123 ≤ m.length % 128 then 1 else 0)

/-- Two messages with as many blocks, alike in bytes 0..63 of each, have the same digest for every WIRING (R111,
spec/42_scheduler.md R123). -/
def Obligations.DigestDependsOnLowerHalves : Prop :=
  ∀ (wr : Wiring) (seed : Seed) (m m' : List Byte),
    (blocks m).map (fun b => b.toList.take 64) = (blocks m').map (fun b => b.toList.take 64) →
      digestState wr seed m = digestState wr seed m'

/-- The engine carries out the hasher of messages: from every state that implements a view, a frame leads to a state that
implements the view after the frame, and the answer is the view's. So a digest read in DONE is that of exactly the bytes
written since the last START under the seed held then (R108, spec/60_exceptions.md R190, spec/10_state.md R37). Two points are
the model's choices: READH answers in HEX_ORDER = BYTEWISE (log 7), and FINISH answers with FILL = 127 because MARKER_127 = DROP
(log 8). -/
def Obligations.EngineRefinesMessageHasher : Prop :=
  ∀ (s : State) (v : HashView) (f : Frame) (rest : List Input),
    Implements s v → s.inq = .frame f :: rest →
      ∃ t, step s = .next t ∧ t.inq = rest ∧
        t.out = s.out ++ [(v.frame Config.wiring Config.hexOrder f).2] ∧
        Implements t (v.frame Config.wiring Config.hexOrder f).1

/-- The reset engine implements the hasher's initial view. -/
def Obligations.ResetImplementsInitialView : Prop := Implements State.reset HashView.reset

/-- Engines are independent (spec/10_state.md R36, spec/60_exceptions.md R194; the list of engines is log 18). Where all have
the invariant, each may take its step at any time: engine k moves as it would alone, the others stay, and all keep the
invariant (with FILL = 127 by MARKER_127 = DROP, log 8). A step of one engine in any system is the step of its own old state and
leaves the others alone, and steps of two different engines commute. -/
def Obligations.EnginesAreIndependent : Prop :=
  (∀ (k : Nat) (es : Engines) (s : State), (∀ e ∈ es, Inv e) → es[k]? = some s →
    ∃ t es', step s = .next t ∧ stepEngine k es = .next es' ∧ es'[k]? = some t ∧ es'.length = es.length ∧
      (∀ j, j ≠ k → es'[j]? = es[j]?) ∧ ∀ e ∈ es', Inv e) ∧
  (∀ (k : Nat) (es es' : Engines), stepEngine k es = .next es' →
    es'.length = es.length ∧ (∀ j, j ≠ k → es'[j]? = es[j]?) ∧
    ∀ s, es[k]? = some s → ∃ t, step s = .next t ∧ es'[k]? = some t) ∧
  (∀ (j k : Nat) (es e1 e2 : Engines), j ≠ k → stepEngine j es = .next e1 → stepEngine k e1 = .next e2 →
    ∃ e3, stepEngine k es = .next e3 ∧ stepEngine j e3 = .next e2)
end

