-- ==== Sys2Proof/Laws/Decode.lean ====
section
/-! SUPPORT. Little-endian numbers and the opcode map. -/

namespace Sys2Proof

@[simp] theorem leBytes_length (n v : Nat) : (leBytes n v).length = n := by
  induction n generalizing v with
  | zero => rfl
  | succ n ih => simp [leBytes, ih]

/-- Bytes written little-endian read back as the number, modulo their width. -/
theorem leNat_leBytes (n v : Nat) : leNat (leBytes n v) = v % 256 ^ n := by
  induction n generalizing v with
  | zero => simp [leBytes, leNat, Nat.mod_one]
  | succ n ih =>
    simp only [leBytes, leNat, ih, BitVec.toNat_ofNat]
    rw [show (256 : Nat) ^ (n + 1) = 256 * 256 ^ n by rw [Nat.pow_succ, Nat.mul_comm], Nat.mod_mul]

/-- Bytes read little-endian are written back as they were. -/
theorem leBytes_leNat (bs : List Byte) : leBytes bs.length (leNat bs) = bs := by
  induction bs with
  | nil => rfl
  | cons b bs ih =>
    have hb := b.isLt
    rw [List.length_cons, leBytes, leNat, show (b.toNat + 256 * leNat bs) / 256 = leNat bs by omega, ih]
    congr 1
    apply BitVec.eq_of_toNat_eq
    rw [BitVec.toNat_ofNat]
    omega

theorem leNat_lt (bs : List Byte) : leNat bs < 256 ^ bs.length := by
  have h := leNat_leBytes bs.length (leNat bs)
  rw [leBytes_leNat] at h
  exact h ▸ Nat.mod_lt _ (Nat.pow_pos (by decide))

/-- The rows of the opcode map, as a function of byte 0. -/
theorem opRow_eq (op : Byte) :
    opRow op =
      if op = 0x01 then some ⟨.setseed, 0xFF, 0x01, 9, 9⟩
      else if op = 0x02 then some ⟨.start, 0xFF, 0x02, 1, 1⟩
      else if op = 0x03 then some ⟨.write, 0xFF, 0x03, 2, 4097⟩
      else if op = 0x04 then some ⟨.finish, 0xFF, 0x04, 1, 1⟩
      else if op = 0x05 then some ⟨.readb, 0xFF, 0x05, 1, 1⟩
      else if op = 0x06 then some ⟨.readh, 0xFF, 0x06, 1, 1⟩
      else if op = 0x07 then some ⟨.status, 0xFF, 0x07, 1, 1⟩
      else if op = 0x08 then some ⟨.abort, 0xFF, 0x08, 1, 1⟩
      else none := by
  revert op
  decide +kernel

/-- No two rows of the opcode map match one byte (R71). -/
theorem opcodeMap_disjoint :
    opcodeMap.Pairwise fun r r' => ∀ op : Byte, ¬(op &&& r.mask = r.pattern ∧ op &&& r'.mask = r'.pattern) := by
  decide +kernel

end Sys2Proof
end

