-- ==== Sys2Proof/Laws/State.lean ====
section
/-! SUPPORT. What each shared update of the state leaves in each field. -/

namespace Sys2Proof.Machine

@[simp] theorem respond_seed (c : Byte) (p : List Byte) (s : State) : (respond c p s).seed = s.seed := rfl
@[simp] theorem respond_seedValid (c : Byte) (p : List Byte) (s : State) : (respond c p s).seedValid = s.seedValid := rfl
@[simp] theorem respond_phase (c : Byte) (p : List Byte) (s : State) : (respond c p s).phase = s.phase := rfl
@[simp] theorem respond_err (c : Byte) (p : List Byte) (s : State) : (respond c p s).err = s.err := rfl
@[simp] theorem respond_fill (c : Byte) (p : List Byte) (s : State) : (respond c p s).fill = s.fill := rfl
@[simp] theorem respond_h (c : Byte) (p : List Byte) (s : State) : (respond c p s).h = s.h := rfl
@[simp] theorem respond_a (c : Byte) (p : List Byte) (s : State) : (respond c p s).a = s.a := rfl
@[simp] theorem respond_w (c : Byte) (p : List Byte) (s : State) : (respond c p s).w = s.w := rfl
@[simp] theorem respond_blk (c : Byte) (p : List Byte) (s : State) : (respond c p s).blk = s.blk := rfl
@[simp] theorem respond_inq (c : Byte) (p : List Byte) (s : State) : (respond c p s).inq = s.inq := rfl
@[simp] theorem respond_out (c : Byte) (p : List Byte) (s : State) : (respond c p s).out = s.out ++ [⟨c, p⟩] := rfl

@[simp] theorem respondOk_seed (p : List Byte) (s : State) : (respondOk p s).seed = s.seed := rfl
@[simp] theorem respondOk_seedValid (p : List Byte) (s : State) : (respondOk p s).seedValid = s.seedValid := rfl
@[simp] theorem respondOk_phase (p : List Byte) (s : State) : (respondOk p s).phase = s.phase := rfl
@[simp] theorem respondOk_err (p : List Byte) (s : State) : (respondOk p s).err = s.err := rfl
@[simp] theorem respondOk_fill (p : List Byte) (s : State) : (respondOk p s).fill = s.fill := rfl
@[simp] theorem respondOk_h (p : List Byte) (s : State) : (respondOk p s).h = s.h := rfl
@[simp] theorem respondOk_a (p : List Byte) (s : State) : (respondOk p s).a = s.a := rfl
@[simp] theorem respondOk_w (p : List Byte) (s : State) : (respondOk p s).w = s.w := rfl
@[simp] theorem respondOk_blk (p : List Byte) (s : State) : (respondOk p s).blk = s.blk := rfl
@[simp] theorem respondOk_inq (p : List Byte) (s : State) : (respondOk p s).inq = s.inq := rfl
@[simp] theorem respondOk_out (p : List Byte) (s : State) : (respondOk p s).out = s.out ++ [⟨okCode, p⟩] := rfl

@[simp] theorem raiseError_seed (e : ErrCode) (s : State) : (raiseError e s).seed = s.seed := rfl
@[simp] theorem raiseError_seedValid (e : ErrCode) (s : State) : (raiseError e s).seedValid = s.seedValid := rfl
@[simp] theorem raiseError_phase (e : ErrCode) (s : State) : (raiseError e s).phase = .failed := rfl
@[simp] theorem raiseError_err (e : ErrCode) (s : State) : (raiseError e s).err = errByte e := rfl
@[simp] theorem raiseError_fill (e : ErrCode) (s : State) : (raiseError e s).fill = s.fill := rfl
@[simp] theorem raiseError_h (e : ErrCode) (s : State) : (raiseError e s).h = s.h := rfl
@[simp] theorem raiseError_a (e : ErrCode) (s : State) : (raiseError e s).a = s.a := rfl
@[simp] theorem raiseError_w (e : ErrCode) (s : State) : (raiseError e s).w = s.w := rfl
@[simp] theorem raiseError_blk (e : ErrCode) (s : State) : (raiseError e s).blk = s.blk := rfl
@[simp] theorem raiseError_inq (e : ErrCode) (s : State) : (raiseError e s).inq = s.inq := rfl
@[simp] theorem raiseError_out (e : ErrCode) (s : State) : (raiseError e s).out = s.out ++ [⟨errByte e, []⟩] := rfl

@[simp] theorem openComputation_seed (h : Vector Word 6) (s : State) : (openComputation h s).seed = s.seed := rfl
@[simp] theorem openComputation_seedValid (h : Vector Word 6) (s : State) : (openComputation h s).seedValid = s.seedValid := rfl
@[simp] theorem openComputation_phase (h : Vector Word 6) (s : State) : (openComputation h s).phase = .absorb := rfl
@[simp] theorem openComputation_err (h : Vector Word 6) (s : State) : (openComputation h s).err = 0 := rfl
@[simp] theorem openComputation_fill (h : Vector Word 6) (s : State) : (openComputation h s).fill = 0 := rfl
@[simp] theorem openComputation_h (h : Vector Word 6) (s : State) : (openComputation h s).h = h := rfl
@[simp] theorem openComputation_a (h : Vector Word 6) (s : State) : (openComputation h s).a = s.a := rfl
@[simp] theorem openComputation_w (h : Vector Word 6) (s : State) : (openComputation h s).w = s.w := rfl
@[simp] theorem openComputation_blk (h : Vector Word 6) (s : State) : (openComputation h s).blk = s.blk := rfl
@[simp] theorem openComputation_inq (h : Vector Word 6) (s : State) : (openComputation h s).inq = s.inq := rfl
@[simp] theorem openComputation_out (h : Vector Word 6) (s : State) : (openComputation h s).out = s.out := rfl

@[simp] theorem resetEngine_seed (s : State) : (resetEngine s).seed = State.reset.seed := rfl
@[simp] theorem resetEngine_seedValid (s : State) : (resetEngine s).seedValid = State.reset.seedValid := rfl
@[simp] theorem resetEngine_phase (s : State) : (resetEngine s).phase = State.reset.phase := rfl
@[simp] theorem resetEngine_err (s : State) : (resetEngine s).err = State.reset.err := rfl
@[simp] theorem resetEngine_fill (s : State) : (resetEngine s).fill = State.reset.fill := rfl
@[simp] theorem resetEngine_h (s : State) : (resetEngine s).h = State.reset.h := rfl
@[simp] theorem resetEngine_a (s : State) : (resetEngine s).a = State.reset.a := rfl
@[simp] theorem resetEngine_w (s : State) : (resetEngine s).w = State.reset.w := rfl
@[simp] theorem resetEngine_blk (s : State) : (resetEngine s).blk = State.reset.blk := rfl
@[simp] theorem resetEngine_inq (s : State) : (resetEngine s).inq = s.inq := rfl
@[simp] theorem resetEngine_out (s : State) : (resetEngine s).out = s.out := rfl

@[simp] theorem reset_seedValid : State.reset.seedValid = false := rfl
@[simp] theorem reset_phase : State.reset.phase = .idle := rfl
@[simp] theorem reset_err : State.reset.err = 0 := rfl
@[simp] theorem reset_fill : State.reset.fill = 0 := rfl
@[simp] theorem reset_blk : State.reset.blk = [] := rfl
@[simp] theorem reset_inq : State.reset.inq = [] := rfl
@[simp] theorem reset_out : State.reset.out = [] := rfl

end Sys2Proof.Machine
end

