-- ==== Sys2Proof/Laws/Memory.lean ====
section
/-! SUPPORT. The block buffer: read after write, the canonical form, and which bytes a compression reads. -/

namespace Sys2Proof.Machine

namespace Memory

@[simp] theorem read_nil (o : Nat) : Memory.read [] o = none := rfl

@[simp] theorem read_cons (c : Host.Cell) (m : Memory) (o : Nat) :
    Memory.read (c :: m) o = if o = c.1 then some c.2 else Memory.read m o := rfl

/-- A read at the offset just written gives the byte written. -/
@[simp] theorem read_write_same (m : Memory) (o : Nat) (b : Byte) : (m.write o b).read o = some b := by
  induction m with
  | nil => simp [Memory.write]
  | cons c m ih =>
    simp only [Memory.write]
    split
    · simp
    · split
      · simp
      · simp [*]

/-- A write leaves every other offset alone. -/
theorem read_write_other (m : Memory) {o o' : Nat} (b : Byte) (h : o' ≠ o) : (m.write o b).read o' = m.read o' := by
  induction m with
  | nil => simp [Memory.write, h]
  | cons c m ih =>
    simp only [Memory.write]
    split
    · simp [h]
    · split
      · next hc => subst hc; simp [h]
      · simp [ih]

theorem read_write (m : Memory) (o o' : Nat) (b : Byte) :
    (m.write o b).read o' = if o' = o then some b else m.read o' := by
  split
  · next h => subst h; simp
  · next h => exact read_write_other m b h

/-- The bytes of a wider store stand in order, every other offset is as before. -/
theorem read_writeBytes (bs : List Byte) (m : Memory) (o o' : Nat) :
    (m.writeBytes o bs).read o' = if o ≤ o' ∧ o' < o + bs.length then bs[o' - o]? else m.read o' := by
  induction bs generalizing m o with
  | nil => simp [Memory.writeBytes]
  | cons b bs ih =>
    simp only [Memory.writeBytes, ih, read_write, List.length_cons]
    by_cases h : o' = o
    · subst h; simp
    · by_cases h1 : o + 1 ≤ o' ∧ o' < o + 1 + bs.length
      · rw [if_pos h1, if_pos (by omega), show o' - o = (o' - (o + 1)) + 1 by omega, List.getElem?_cons_succ]
      · rw [if_neg h1, if_neg h, if_neg (by omega)]

/-- The zero fill: zero at the filled offsets, every other offset as before. -/
theorem read_zeroFrom (m : Memory) (o n o' : Nat) :
    (m.zeroFrom o n).read o' = if o ≤ o' ∧ o' < o + n then some 0 else m.read o' := by
  rw [Memory.zeroFrom, read_writeBytes]
  simp only [List.length_replicate]
  split
  · next h => rw [List.getElem?_replicate]; rw [if_pos (by omega)]
  · rfl

theorem wfFrom_mono {lo lo' : Nat} (h : lo' ≤ lo) {m : Memory} (hm : m.wfFrom lo = true) : m.wfFrom lo' = true := by
  cases m with
  | nil => rfl
  | cons c m =>
    simp only [Memory.wfFrom, Bool.and_eq_true, decide_eq_true_eq] at hm ⊢
    exact ⟨⟨by omega, hm.1.2⟩, hm.2⟩

theorem wfFrom_write {lo o : Nat} (b : Byte) (hlo : lo ≤ o) (ho : o < Config.blockSize) {m : Memory}
    (hm : m.wfFrom lo = true) : (m.write o b).wfFrom lo = true := by
  induction m generalizing lo with
  | nil => simp [Memory.write, Memory.wfFrom, hlo]; exact ho
  | cons c m ih =>
    simp only [Memory.wfFrom, Bool.and_eq_true, decide_eq_true_eq] at hm
    obtain ⟨⟨h1, h2⟩, h3⟩ := hm
    simp only [Memory.write]
    split
    · next hc =>
      simp only [Memory.wfFrom, Bool.and_eq_true, decide_eq_true_eq]
      exact ⟨⟨hlo, ho⟩, ⟨by omega, h2⟩, h3⟩
    · split
      · next hc =>
        simp only [Memory.wfFrom, Bool.and_eq_true, decide_eq_true_eq]
        exact ⟨⟨hlo, ho⟩, hc ▸ h3⟩
      · next h4 h5 =>
        simp only [Memory.wfFrom, Bool.and_eq_true, decide_eq_true_eq]
        exact ⟨⟨h1, h2⟩, ih (by omega) h3⟩

/-- A store inside the buffer keeps the canonical form. -/
theorem wf_write {o : Nat} (b : Byte) (ho : o < Config.blockSize) {m : Memory} (hm : m.wf = true) :
    (m.write o b).wf = true := wfFrom_write b (Nat.zero_le _) ho hm

/-- A wider store inside the buffer keeps the canonical form. -/
theorem wf_writeBytes (bs : List Byte) {m : Memory} {o : Nat} (ho : o + bs.length ≤ Config.blockSize) (hm : m.wf = true) :
    (m.writeBytes o bs).wf = true := by
  induction bs generalizing m o with
  | nil => exact hm
  | cons b bs ih =>
    simp only [List.length_cons] at ho
    exact ih (by omega) (wf_write b (by omega) hm)

theorem wf_zeroFrom {m : Memory} {o n : Nat} (ho : o + n ≤ Config.blockSize) (hm : m.wf = true) :
    (m.zeroFrom o n).wf = true := wf_writeBytes _ (by simpa using ho) hm

theorem read_of_wfFrom {lo o : Nat} (h : o < lo) {m : Memory} (hm : m.wfFrom lo = true) : m.read o = none := by
  induction m generalizing lo with
  | nil => rfl
  | cons c m ih =>
    simp only [Memory.wfFrom, Bool.and_eq_true, decide_eq_true_eq] at hm
    rw [read_cons, if_neg (by omega)]
    exact ih (by omega) hm.2

/-- Two buffers in canonical form with the same contents are the same list. -/
theorem eq_of_read_eq {lo : Nat} {m m' : Memory} (hm : m.wfFrom lo = true) (hm' : m'.wfFrom lo = true)
    (h : ∀ o, m.read o = m'.read o) : m = m' := by
  induction m generalizing m' lo with
  | nil =>
    cases m' with
    | nil => rfl
    | cons c m' => have := h c.1; simp at this
  | cons c m ih =>
    cases m' with
    | nil => have := h c.1; simp at this
    | cons c' m' =>
      simp only [Memory.wfFrom, Bool.and_eq_true, decide_eq_true_eq] at hm hm'
      have hcc : c.1 = c'.1 := by
        rcases Nat.lt_trichotomy c.1 c'.1 with hl | he | hl
        · have := h c.1
          rw [read_cons, if_pos rfl, read_cons, if_neg (by omega), read_of_wfFrom (by omega) hm'.2] at this
          cases this
        · exact he
        · have := h c'.1
          rw [read_cons, if_neg (by omega), read_cons, if_pos rfl, read_of_wfFrom (by omega) hm.2] at this
          cases this
      have hb : c.2 = c'.2 := by
        have := h c.1
        rw [read_cons, if_pos rfl, read_cons, if_pos hcc] at this
        exact Option.some.inj this
      have hc : c = c' := Prod.ext hcc hb
      subst hc
      refine congrArg (c :: ·) (ih hm.2 hm'.2 fun o => ?_)
      rcases Nat.lt_or_ge o (c.1 + 1) with hlt | hge
      · rw [read_of_wfFrom hlt hm.2, read_of_wfFrom hlt hm'.2]
      · have := h o
        rwa [read_cons, if_neg (by omega), read_cons, if_neg (by omega)] at this

/-- An offset outside the buffer holds nothing. -/
theorem read_outside {m : Memory} (hm : m.wf = true) {o : Nat} (h : Config.blockSize ≤ o) : m.read o = none := by
  suffices ∀ lo, m.wfFrom lo = true → m.read o = none from this 0 hm
  clear hm
  intro lo hm
  induction m generalizing lo with
  | nil => rfl
  | cons c m ih =>
    simp only [Memory.wfFrom, Bool.and_eq_true, decide_eq_true_eq] at hm
    rw [read_cons, if_neg (by omega)]
    exact ih (c.1 + 1) hm.2

/-- The scheduled bytes are there exactly when offsets 0..63 have been written, and are those bytes. -/
theorem scheduled_eq_some {m : Memory} {b : Fin 64 → Byte} :
    m.scheduled = some b ↔ ∀ o : Fin 64, m.read o.val = some (b o) := by
  unfold Memory.scheduled
  constructor
  · intro h o
    split at h
    · next hs =>
      simp only [Option.some.injEq] at h
      subst h
      simp
    · cases h
  · intro h
    have hs : ∀ o : Fin 64, (m.read o.val).isSome = true := fun o => by simp [h o]
    rw [dif_pos hs]
    simp [h]

end Memory

end Sys2Proof.Machine
end

