-- ==== Sys2Proof/Laws/Ops.lean ====
section
/-! SUPPORT. What each shared operation can do, said once. -/

namespace Sys2Proof.Machine

@[simp] theorem andThen_next (s : State) (f : State → Result) : andThen (.next s) f = f s := rfl

@[simp] theorem andThen_fault (r : Fault) (f : State → Result) : andThen (.fault r) f = .fault r := rfl

@[simp] theorem andThen_refused (r : Refusal) (f : State → Result) : andThen (.refused r) f = .refused r := rfl

theorem next_eq_next {s t : State} : (Host.Outcome.next s : Result) = .next t ↔ t = s :=
  ⟨fun h => (Host.Outcome.next.inj h).symm, fun h => h ▸ rfl⟩

/-- A sequence ends in a next state exactly where both parts do. -/
theorem andThen_eq_next {o : Result} {f : State → Result} {t : State} :
    andThen o f = .next t ↔ ∃ m, o = .next m ∧ f m = .next t := by
  cases o <;> simp

theorem andThen_assoc (o : Result) (f g : State → Result) :
    andThen (andThen o f) g = andThen o fun s => andThen (f s) g := by
  cases o <;> rfl

/-- A compression goes through exactly where offsets 0..63 have been written, and writes W, A and H only. -/
theorem compress_eq_next {wr : Wiring} {s t : State} :
    compress wr s = .next t ↔
      ∃ b : Fin 64 → Byte, (∀ o : Fin 64, s.blk.read o.val = some (b o)) ∧
        t = { s with w := schedule b, a := rounds wr (schedule b) s.h, h := compressH wr s.h b } := by
  unfold compress
  constructor
  · intro h
    split at h
    · cases h
    · next b hb =>
      simp only [Host.Outcome.next.injEq] at h
      exact ⟨b, Memory.scheduled_eq_some.mp hb, h.symm⟩
  · rintro ⟨b, hb, rfl⟩
    rw [Memory.scheduled_eq_some.mpr hb]

/-- The compression of a buffer whose scheduled bytes are known. -/
theorem compress_of_read (wr : Wiring) {s : State} {b : Fin 64 → Byte} (hb : ∀ o : Fin 64, s.blk.read o.val = some (b o)) :
    compress wr s = .next { s with w := schedule b, a := rounds wr (schedule b) s.h, h := compressH wr s.h b } :=
  compress_eq_next.mpr ⟨b, hb, rfl⟩

/-- A compression never refuses, and its one fault is an unwritten byte. -/
theorem compress_cases (wr : Wiring) (s : State) :
    compress wr s = .fault .unwrittenByte ∨ ∃ t, compress wr s = .next t := by
  unfold compress
  split
  · exact .inl rfl
  · exact .inr ⟨_, rfl⟩

theorem storeAtFill_eq_next {b : Byte} {s t : State} :
    storeAtFill b s = .next t ↔
      s.fill.toNat < Config.blockSize ∧ t = { s with blk := s.blk.write s.fill.toNat b, fill := s.fill + 1 } := by
  unfold storeAtFill
  split
  · next h => simp [h, eq_comm]
  · next h => simp [h]

/-- The lazy flush: nothing unless the buffer is full, else a compression and an empty buffer. -/
theorem flushFull_eq_next {wr : Wiring} {s t : State} :
    flushFull wr s = .next t ↔
      (s.fill ≠ 128 ∧ t = s) ∨
      (s.fill = 128 ∧ ∃ b : Fin 64 → Byte, (∀ o : Fin 64, s.blk.read o.val = some (b o)) ∧
        t = { s with w := schedule b, a := rounds wr (schedule b) s.h, h := compressH wr s.h b, fill := 0 }) := by
  unfold flushFull
  split
  · next h =>
    simp only [andThen_eq_next, compress_eq_next, h, ne_eq, not_true_eq_false, false_and, false_or, true_and]
    constructor
    · rintro ⟨m, ⟨b, hb, rfl⟩, ht⟩
      simp only [Host.Outcome.next.injEq] at ht
      exact ⟨b, hb, ht.symm⟩
    · rintro ⟨b, hb, rfl⟩
      exact ⟨_, ⟨b, hb, rfl⟩, rfl⟩
  · next h =>
    simp only [Host.Outcome.next.injEq, h, ne_eq, not_false_eq_true, true_and, false_and, or_false]
    exact eq_comm

/-- A message byte: a store into a buffer with room, or the compression of a full buffer and a store at offset 0. -/
theorem absorbByte_eq_next {wr : Wiring} {b : Byte} {s t : State} :
    absorbByte wr b s = .next t ↔
      (s.fill.toNat < 128 ∧ t = { s with blk := s.blk.write s.fill.toNat b, fill := s.fill + 1 }) ∨
      (s.fill = 128 ∧ ∃ c : Fin 64 → Byte, (∀ o : Fin 64, s.blk.read o.val = some (c o)) ∧
        t = { s with w := schedule c, a := rounds wr (schedule c) s.h, h := compressH wr s.h c,
                     blk := s.blk.write 0 b, fill := 1 }) := by
  simp only [absorbByte, andThen_eq_next, flushFull_eq_next, storeAtFill_eq_next]
  constructor
  · rintro ⟨m, ⟨-, rfl⟩ | ⟨hf, c, hc, rfl⟩, hlt, rfl⟩
    · exact .inl ⟨hlt, rfl⟩
    · exact .inr ⟨hf, c, hc, rfl⟩
  · rintro (⟨hlt, rfl⟩ | ⟨hf, c, hc, rfl⟩)
    · exact ⟨s, .inl ⟨fun h => by rw [h] at hlt; exact absurd hlt (by decide), rfl⟩, hlt, rfl⟩
    · exact ⟨_, .inr ⟨hf, c, hc, rfl⟩, show (0 : Nat) < 128 by decide, rfl⟩

/-- A message byte is absorbed wherever FILL is at most 128 and a full buffer has its scheduled bytes. -/
theorem absorbByte_completes (wr : Wiring) (b : Byte) {s : State} (hf : s.fill.toNat ≤ 128)
    (hw : s.fill = 128 → ∀ o : Nat, o < 64 → (s.blk.read o).isSome = true) : ∃ t, absorbByte wr b s = .next t := by
  by_cases h : s.fill = 128
  · exact ⟨_, absorbByte_eq_next.mpr (.inr ⟨h, fun o => (s.blk.read o.val).get (hw h o.val o.isLt), by simp, rfl⟩)⟩
  · refine ⟨_, absorbByte_eq_next.mpr (.inl ⟨?_, rfl⟩)⟩
    rcases Nat.lt_or_eq_of_le hf with hlt | heq
    · exact hlt
    · exact absurd (BitVec.eq_of_toNat_eq (y := 128) heq) h

/-- A message byte changes the data registers, BLK and FILL only, and advances FILL as the lazy flush says. -/
theorem absorbByte_frame {wr : Wiring} {b : Byte} {s t : State} (h : absorbByte wr b s = .next t) :
    t.seed = s.seed ∧ t.seedValid = s.seedValid ∧ t.phase = s.phase ∧ t.err = s.err ∧ t.inq = s.inq ∧ t.out = s.out ∧
      t.blk = s.blk.write (if s.fill = 128 then 0 else s.fill.toNat) b ∧
      t.fill = (if s.fill = 128 then 1 else s.fill + 1) := by
  simp only [absorbByte, andThen_eq_next, flushFull_eq_next, storeAtFill_eq_next] at h
  obtain ⟨m, ⟨hf, rfl⟩ | ⟨hf, b, hb, rfl⟩, -, rfl⟩ := h
  · refine ⟨rfl, rfl, rfl, rfl, rfl, rfl, ?_, ?_⟩
    · rw [if_neg hf]
    · rw [if_neg hf]
  · refine ⟨rfl, rfl, rfl, rfl, rfl, rfl, ?_, ?_⟩
    · rw [if_pos hf]; rfl
    · rw [if_pos hf]; rfl

@[simp] theorem absorbBytes_nil (wr : Wiring) (s : State) : absorbBytes wr [] s = .next s := rfl

@[simp] theorem absorbBytes_cons (wr : Wiring) (b : Byte) (bs : List Byte) (s : State) :
    absorbBytes wr (b :: bs) s = andThen (absorbByte wr b s) (absorbBytes wr bs) := rfl

/-- Bytes are absorbed one by one, so a cut between them does not show (R109). -/
theorem absorbBytes_append (wr : Wiring) (d d' : List Byte) (s : State) :
    absorbBytes wr (d ++ d') s = andThen (absorbBytes wr d s) (absorbBytes wr d') := by
  induction d generalizing s with
  | nil => rfl
  | cons b bs ih =>
    rw [List.cons_append, absorbBytes_cons, absorbBytes_cons, andThen_assoc]
    exact congrArg (andThen (absorbByte wr b s)) (funext ih)

/-- Absorbing bytes keeps the control registers and the ports. -/
theorem absorbBytes_frame {wr : Wiring} {d : List Byte} {s t : State} (h : absorbBytes wr d s = .next t) :
    t.seed = s.seed ∧ t.seedValid = s.seedValid ∧ t.phase = s.phase ∧ t.err = s.err ∧ t.inq = s.inq ∧ t.out = s.out := by
  induction d generalizing s with
  | nil => simp only [absorbBytes_nil, Host.Outcome.next.injEq] at h; subst h; simp
  | cons b bs ih =>
    rw [absorbBytes_cons, andThen_eq_next] at h
    obtain ⟨m, hm, ht⟩ := h
    obtain ⟨h1, h2, h3, h4, h5, h6, -, -⟩ := absorbByte_frame hm
    obtain ⟨g1, g2, g3, g4, g5, g6⟩ := ih ht
    exact ⟨g1.trans h1, g2.trans h2, g3.trans h3, g4.trans h4, g5.trans h5, g6.trans h6⟩

/-- What keeping a byte of the length field does to a read. -/
theorem read_writeLengthWhere (keep : Nat → Bool) (size : Nat) (m : Memory) (o : Nat) :
    (writeLengthWhere keep size m).read o =
      if 124 ≤ o ∧ o < 128 ∧ keep o = true then (lengthField size)[o - 124]? else m.read o := by
  have hlen : ∃ b0 b1 b2 b3, lengthField size = [b0, b1, b2, b3] := ⟨_, _, _, _, rfl⟩
  obtain ⟨b0, b1, b2, b3, hl⟩ := hlen
  have step : ∀ (m : Memory) (c : Bool) (p : Nat) (b : Byte),
      (if c = true then m.write p b else m).read o = if o = p ∧ c = true then some b else m.read o := by
    intro m c p b
    cases c <;> simp [Memory.read_write]
  simp only [writeLengthWhere, hl, List.zipIdx_cons, List.zipIdx_nil, List.foldl_cons, List.foldl_nil, step,
    Config.lenFieldOffset]
  by_cases h : 124 ≤ o ∧ o < 128
  · have : o = 124 ∨ o = 125 ∨ o = 126 ∨ o = 127 := by omega
    rcases this with rfl | rfl | rfl | rfl <;> simp
  · rw [if_neg (by omega), if_neg (by omega), if_neg (by omega), if_neg (by omega), if_neg (by omega)]

theorem wf_writeLengthWhere (keep : Nat → Bool) (size : Nat) {m : Memory} (hm : m.wf = true) :
    (writeLengthWhere keep size m).wf = true := by
  have hlen : ∃ b0 b1 b2 b3, lengthField size = [b0, b1, b2, b3] := ⟨_, _, _, _, rfl⟩
  obtain ⟨b0, b1, b2, b3, hl⟩ := hlen
  have step : ∀ (m : Memory) (c : Bool) (p : Nat) (b : Byte), p < 128 → m.wf = true →
      (if c = true then m.write p b else m).wf = true := by
    intro m c p b hp hm
    split
    · exact Memory.wf_write b hp hm
    · exact hm
  simp only [writeLengthWhere, hl, List.zipIdx_cons, List.zipIdx_nil, List.foldl_cons, List.foldl_nil, Config.lenFieldOffset]
  exact step _ _ _ _ (by omega) (step _ _ _ _ (by omega) (step _ _ _ _ (by omega) (step _ _ _ _ (by omega) hm)))

theorem lengthField_length (size : Nat) : (lengthField size).length = 4 := rfl

/-- For the sizes that are padded, the length field is `size, 0, 0, 0` (R103). -/
theorem lengthField_eq {size : Nat} (h : size < 128) : lengthField size = [BitVec.ofNat 8 size, 0, 0, 0] := by
  simp only [lengthField, le32, leBytes, BitVec.toNat_ofNat]
  rw [Nat.mod_eq_of_lt (by omega), Nat.div_eq_of_lt (show size < 256 by omega)]
  rfl

/-- One padded block: every offset of the buffer (R103, spec/20_memory.md R55). -/
theorem read_padSingle {size : Nat} (h : size < 123) (m : Memory) (o : Nat) :
    (padSingle size m).read o =
      if o < size then m.read o
      else if o = size + 1 then some 0x80
      else if o = 124 then some (BitVec.ofNat 8 size)
      else if o < 128 then some 0
      else m.read o := by
  simp only [padSingle, Memory.read_writeBytes, Memory.read_write, Memory.read_zeroFrom, lengthField_eq (show size < 128 by omega),
    Config.blockSize, Config.lenFieldOffset, markerByte, List.length_cons, List.length_nil]
  by_cases h1 : o < size
  · rw [if_neg (by omega), if_neg (by omega), if_neg (by omega), if_pos h1]
  · rw [if_neg h1]
    by_cases h2 : o = size + 1
    · rw [if_neg (by omega), if_pos h2, if_pos h2]
    · rw [if_neg h2]
      by_cases h3 : 124 ≤ o ∧ o < 128
      · have : o = 124 ∨ o = 125 ∨ o = 126 ∨ o = 127 := by omega
        rcases this with rfl | rfl | rfl | rfl <;> simp [h2]
      · rw [if_neg (by omega), if_neg h2, if_neg (show ¬ o = 124 by omega)]
        by_cases h4 : o < 128
        · rw [if_pos (by omega), if_pos h4]
        · rw [if_neg (by omega), if_neg h4]

/-- The first spill block: every offset of the buffer (R104, R105). -/
theorem read_padSpillFirst {size : Nat} (h1 : 123 ≤ size) (h2 : size < 128) (m : Memory) (o : Nat) :
    (padSpillFirst size m).read o =
      if o < size then m.read o
      else if o = size + 1 ∧ o < 128 then some 0x80
      else if o < 128 then some 0
      else m.read o := by
  simp only [padSpillFirst, read_writeLengthWhere, lengthField_eq h2, Config.blockSize, decide_eq_true_eq]
  have hz : ((if size + 1 < 128 then (m.zeroFrom size (128 - size)).write (size + 1) markerByte
      else m.zeroFrom size (128 - size)).read o) =
      if o = size + 1 ∧ o < 128 then some 0x80 else (m.zeroFrom size (128 - size)).read o := by
    split
    · rw [Memory.read_write]
      by_cases ho : o = size + 1
      · rw [if_pos ho, if_pos ⟨ho, by omega⟩]; rfl
      · rw [if_neg ho, if_neg (by omega)]
    · rw [if_neg (by omega)]
  rw [hz, Memory.read_zeroFrom]
  by_cases c1 : o < size
  · rw [if_neg (by omega), if_neg (by omega), if_neg (by omega), if_pos c1]
  · rw [if_neg c1]
    by_cases c2 : o = size + 1 ∧ o < 128
    · rw [if_neg (by omega), if_pos c2, if_pos c2]
    · rw [if_neg c2]
      by_cases c3 : o < 128
      · rw [if_pos c3]
        by_cases c4 : 124 ≤ o ∧ o < 128 ∧ size + 1 < o
        · rw [if_pos c4]
          have : o = 125 ∨ o = 126 ∨ o = 127 := by omega
          rcases this with rfl | rfl | rfl <;> (rw [if_neg c2]; rfl)
        · rw [if_neg c4, if_neg c2, if_pos (by omega)]
      · rw [if_neg c3, if_neg (by omega), if_neg c2, if_neg (by omega)]

/-- The second spill block: every offset of the buffer (R104). -/
theorem read_padSpillSecond {size : Nat} (h1 : 123 ≤ size) (h2 : size < 128) (m : Memory) (o : Nat) :
    (padSpillSecond size m).read o =
      if o = 124 then some (BitVec.ofNat 8 size) else if o < 128 then some 0 else m.read o := by
  simp only [padSpillSecond, read_writeLengthWhere, lengthField_eq h2, Config.blockSize, decide_eq_true_eq,
    Memory.read_zeroFrom, Nat.zero_le, true_and, Nat.zero_add]
  by_cases c1 : 124 ≤ o ∧ o < 128 ∧ o ≤ size + 1
  · rw [if_pos c1]
    have : o = 124 ∨ o = 125 ∨ o = 126 ∨ o = 127 := by omega
    rcases this with rfl | rfl | rfl | rfl <;> rfl
  · rw [if_neg c1, if_neg (show ¬ o = 124 by omega)]

theorem wf_padSingle {size : Nat} (h : size < 123) {m : Memory} (hm : m.wf = true) : (padSingle size m).wf = true :=
  Memory.wf_writeBytes _ (by rw [lengthField_length])
    (Memory.wf_write _ (show size + 1 < 128 by omega) (Memory.wf_zeroFrom (show size + (128 - size) ≤ 128 by omega) hm))

theorem wf_padSpillFirst {size : Nat} (h : size < 128) {m : Memory} (hm : m.wf = true) :
    (padSpillFirst size m).wf = true := by
  have hz : (m.zeroFrom size (Config.blockSize - size)).wf = true :=
    Memory.wf_zeroFrom (show size + (128 - size) ≤ 128 by omega) hm
  unfold padSpillFirst
  refine wf_writeLengthWhere _ _ ?_
  split
  · next hs => exact Memory.wf_write _ hs hz
  · exact hz

theorem wf_padSpillSecond (size : Nat) {m : Memory} (hm : m.wf = true) : (padSpillSecond size m).wf = true :=
  wf_writeLengthWhere _ _ (Memory.wf_zeroFrom (show 0 + 128 ≤ 128 by omega) hm)

/-- The padding and compressions of FINISH, branch by branch (R102). -/
theorem padAndCompress_eq_next {wr : Wiring} {mk : Marker127} {s t : State} :
    padAndCompress wr mk s = .next t ↔
      (s.fill.toNat = 128 ∧ compress wr s = .next t) ∨
      (s.fill.toNat < 123 ∧ compress wr { s with blk := padSingle s.fill.toNat s.blk } = .next t) ∨
      (123 ≤ s.fill.toNat ∧ s.fill.toNat < 128 ∧ ¬(s.fill.toNat = 127 ∧ mk = .refuse) ∧
        ∃ m, compress wr { s with blk := padSpillFirst s.fill.toNat s.blk } = .next m ∧
          compress wr { m with blk := padSpillSecond s.fill.toNat m.blk } = .next t) := by
  unfold padAndCompress
  dsimp only
  split
  · next h =>
    constructor
    · intro hx; exact .inl ⟨h, hx⟩
    · rintro (⟨-, hx⟩ | ⟨hx, -⟩ | ⟨-, hx, -, -⟩)
      · exact hx
      · rw [h] at hx; exact absurd hx (by decide)
      · rw [h] at hx; exact absurd hx (by decide)
  · next h =>
    split
    · next h' =>
      constructor
      · intro hx; exact .inr (.inl ⟨h', hx⟩)
      · rintro (⟨hx, -⟩ | ⟨-, hx⟩ | ⟨hx, -, -, -⟩)
        · exact absurd hx h
        · exact hx
        · exact absurd h' (Nat.not_lt.mpr hx)
    · next h' =>
      split
      · next h'' =>
        have : 123 ≤ s.fill.toNat := by simpa using h'
        split
        · next hm => simp [hm]
        · next hm =>
          rw [andThen_eq_next]
          constructor
          · intro hx; exact .inr (.inr ⟨this, h'', hm, hx⟩)
          · rintro (⟨hx, -⟩ | ⟨hx, -⟩ | ⟨-, -, -, hx⟩)
            · exact absurd hx h
            · exact absurd hx h'
            · exact hx
      · next h'' =>
        constructor
        · intro hx; cases hx
        · rintro (⟨hx, -⟩ | ⟨hx, -⟩ | ⟨-, hx, -, -⟩)
          · exact absurd hx h
          · exact absurd hx h'
          · exact absurd hx h''

/-- The padding and compressions of FINISH change the data registers and BLK only. -/
theorem padAndCompress_frame {wr : Wiring} {mk : Marker127} {s t : State} (h : padAndCompress wr mk s = .next t) :
    t.seed = s.seed ∧ t.seedValid = s.seedValid ∧ t.phase = s.phase ∧ t.err = s.err ∧ t.fill = s.fill ∧ t.inq = s.inq ∧
      t.out = s.out := by
  unfold padAndCompress at h
  dsimp only at h
  split at h
  · obtain ⟨b, -, rfl⟩ := compress_eq_next.mp h; simp
  · split at h
    · obtain ⟨b, -, rfl⟩ := compress_eq_next.mp h; simp
    · split at h
      · split at h
        · cases h
        · rw [andThen_eq_next] at h
          obtain ⟨m, hm, ht⟩ := h
          obtain ⟨b, -, rfl⟩ := compress_eq_next.mp hm
          obtain ⟨b', -, rfl⟩ := compress_eq_next.mp ht
          simp
      · cases h

/-- The buffer of an open computation: FILL in 0..128, BLK in canonical form, the FILL first bytes written. -/
structure BufferOk (s : State) : Prop where
  fill_le : s.fill.toNat ≤ 128
  blk_wf : s.blk.wf = true
  tail_written : ∀ o : Nat, o < s.fill.toNat → (s.blk.read o).isSome = true

/-- A message byte keeps the buffer in that form. -/
theorem absorbByte_bufferOk {wr : Wiring} {b : Byte} {s t : State} (hs : BufferOk s) (h : absorbByte wr b s = .next t) :
    BufferOk t := by
  rcases absorbByte_eq_next.mp h with ⟨hlt, rfl⟩ | ⟨hf, c, hc, rfl⟩
  · have hn : (s.fill + 1).toNat = s.fill.toNat + 1 := by
      rw [BitVec.toNat_add]
      simp
      omega
    refine ⟨by simp only [hn]; omega, Memory.wf_write b hlt hs.blk_wf, fun o ho => ?_⟩
    simp only [hn] at ho
    simp only [Memory.read_write]
    split
    · rfl
    · exact hs.tail_written o (by omega)
  · refine ⟨by simp, Memory.wf_write b (show 0 < 128 by decide) hs.blk_wf, fun o ho => ?_⟩
    simp at ho
    subst ho
    simp

/-- Absorbing bytes into such a buffer goes through and keeps it in that form. -/
theorem absorbBytes_completes (wr : Wiring) (d : List Byte) {s : State} (hs : BufferOk s) :
    ∃ t, absorbBytes wr d s = .next t ∧ BufferOk t := by
  induction d generalizing s with
  | nil => exact ⟨s, rfl, hs⟩
  | cons b bs ih =>
    obtain ⟨m, hm⟩ := absorbByte_completes wr b hs.fill_le
      fun hf o ho => hs.tail_written o (by rw [hf]; simp; omega)
    obtain ⟨t, ht, hok⟩ := ih (absorbByte_bufferOk hs hm)
    exact ⟨t, by rw [absorbBytes_cons, hm, andThen_next, ht], hok⟩

/-- A compression goes through wherever offsets 0..63 have been written. -/
theorem compress_completes (wr : Wiring) {s : State} (h : ∀ o : Nat, o < 64 → (s.blk.read o).isSome = true) :
    ∃ t, compress wr s = .next t :=
  ⟨_, compress_of_read wr (b := fun o => (s.blk.read o.val).get (h o.val o.isLt)) (by simp)⟩

/-- The padding and compressions of FINISH go through on such a buffer (R186). -/
theorem padAndCompress_completes (wr : Wiring) {s : State} (hs : BufferOk s) :
    ∃ t, padAndCompress wr .drop s = .next t := by
  by_cases h1 : s.fill.toNat = 128
  · obtain ⟨t, ht⟩ := compress_completes wr (s := s) fun o ho => hs.tail_written o (by omega)
    exact ⟨t, padAndCompress_eq_next.mpr (.inl ⟨h1, ht⟩)⟩
  · by_cases h2 : s.fill.toNat < 123
    · obtain ⟨t, ht⟩ := compress_completes wr (s := { s with blk := padSingle s.fill.toNat s.blk }) fun o ho => by
        simp only [read_padSingle h2]
        split
        · exact hs.tail_written o (by omega)
        · split
          · rfl
          · split
            · rfl
            · rw [if_pos (by omega)]; rfl
      exact ⟨t, padAndCompress_eq_next.mpr (.inr (.inl ⟨h2, ht⟩))⟩
    · have h3 : s.fill.toNat < 128 := by have := hs.fill_le; omega
      obtain ⟨m, hm⟩ := compress_completes wr (s := { s with blk := padSpillFirst s.fill.toNat s.blk }) fun o ho => by
        simp only [read_padSpillFirst (by omega) h3]
        rw [if_pos (by omega)]
        exact hs.tail_written o (by omega)
      obtain ⟨t, ht⟩ := compress_completes wr (s := { m with blk := padSpillSecond s.fill.toNat m.blk }) fun o ho => by
        simp only [read_padSpillSecond (by omega) h3]
        rw [if_neg (by omega), if_pos (by omega)]
        rfl
      exact ⟨t, padAndCompress_eq_next.mpr (.inr (.inr ⟨by omega, h3, by simp, m, hm, ht⟩))⟩

/-- The padding of FINISH keeps the canonical form of BLK. -/
theorem padAndCompress_wf {wr : Wiring} {mk : Marker127} {s t : State} (h : padAndCompress wr mk s = .next t)
    (hw : s.blk.wf = true) : t.blk.wf = true := by
  rcases padAndCompress_eq_next.mp h with ⟨-, h⟩ | ⟨h2, h⟩ | ⟨h2, h3, -, m, hm, h⟩
  · obtain ⟨b, -, rfl⟩ := compress_eq_next.mp h
    exact hw
  · obtain ⟨b, -, rfl⟩ := compress_eq_next.mp h
    exact wf_padSingle h2 hw
  · obtain ⟨b, -, rfl⟩ := compress_eq_next.mp hm
    obtain ⟨b', -, rfl⟩ := compress_eq_next.mp h
    exact wf_padSpillSecond _ (wf_padSpillFirst h3 hw)

end Sys2Proof.Machine
end

