-- ==== Sys2Proof/Laws/Step.lean ====
section
/-! SUPPORT. What a step is, by the head of the input queue. -/

namespace Sys2Proof.Machine

theorem step_of_nil {s : State} (h : s.inq = []) : step s = .next s := by
  unfold step
  rw [h]

theorem step_of_reset {s : State} {o : Option Frame} {rest : List Input} (h : s.inq = .reset o :: rest) :
    step s = .next (resetEngine { s with inq := rest }) := by
  unfold step
  rw [h]

theorem step_of_frame {s : State} {f : Frame} {rest : List Input} (h : s.inq = .frame f :: rest) :
    step s = stepFrame f { s with inq := rest } := by
  unfold step
  rw [h]

theorem stepFrame_ok {f : Frame} {i : Instr} (h : decodeFrame f = .ok i) (s : State) : stepFrame f s = exec i s := by
  unfold stepFrame
  rw [h]

theorem stepFrame_error {f : Frame} {e : ErrCode} (h : decodeFrame f = .error e) (s : State) :
    stepFrame f s = .next (raiseError e s) := by
  unfold stepFrame
  rw [h]

/-- A step waits, resets the engine, enters an error for a frame that is no command, or runs a command. -/
theorem step_cases (s : State) :
    (s.inq = [] ∧ step s = .next s) ∨
    (∃ o rest, s.inq = .reset o :: rest ∧ step s = .next (resetEngine { s with inq := rest })) ∨
    (∃ f rest e, s.inq = .frame f :: rest ∧ decodeFrame f = .error e ∧
      step s = .next (raiseError e { s with inq := rest })) ∨
    (∃ f rest i, s.inq = .frame f :: rest ∧ decodeFrame f = .ok i ∧ step s = exec i { s with inq := rest }) := by
  rcases hq : s.inq with _ | ⟨_ | _, rest⟩
  · exact .inl ⟨rfl, step_of_nil hq⟩
  · next f =>
    rcases hd : decodeFrame f with e | i
    · exact .inr (.inr (.inl ⟨f, rest, e, rfl, hd, (step_of_frame hq).trans (stepFrame_error hd _)⟩))
    · exact .inr (.inr (.inr ⟨f, rest, i, rfl, hd, (step_of_frame hq).trans (stepFrame_ok hd _)⟩))
  · next o => exact .inr (.inl ⟨o, rest, rfl, step_of_reset hq⟩)

end Sys2Proof.Machine
end

