-- ==== Sys2Proof/Laws/Exec.lean ====
section
/-! SUPPORT. What each command can do: one lemma per meaning. -/

namespace Sys2Proof.Machine

theorem execSetseed_eq_next {x : Seed} {s t : State} :
    execSetseed x s = .next t ↔
      (s.phase = .absorb ∧ t = raiseError .ePhase s) ∨
      (s.phase ≠ .absorb ∧ t = respondOk [] { s with seed := x, seedValid := true }) := by
  unfold execSetseed
  split
  · next h => simp only [next_eq_next, h, true_and, false_and, or_false, ne_eq, not_true_eq_false]
  · next h => simp only [next_eq_next, h, true_and, false_and, false_or, ne_eq, not_false_eq_true]

theorem execStart_eq_next {s t : State} :
    execStart s = .next t ↔
      (s.seedValid = true ∧ t = respondOk [] (openComputation (seedExpand s.seed) s)) ∨
      (s.seedValid = false ∧ t = raiseError .ePhase s) := by
  unfold execStart
  split
  · next h => rw [next_eq_next]; simp [h]
  · next h => rw [next_eq_next]; simp [h]

theorem writeWith_eq_next {wr : Wiring} {d : List Byte} {s t : State} :
    writeWith wr d s = .next t ↔
      (s.phase = .absorb ∧ ∃ m, absorbBytes wr d s = .next m ∧ t = respondOk [] m) ∨
      (s.phase ≠ .absorb ∧ t = raiseError .ePhase s) := by
  unfold writeWith
  split
  · next h => simp only [andThen_eq_next, next_eq_next, h, true_and, false_and, or_false, ne_eq, not_true_eq_false]
  · next h => simp only [next_eq_next, h, true_and, false_and, false_or, ne_eq, not_false_eq_true]

theorem execWrite_eq_next {d : List Byte} {s t : State} :
    execWrite d s = .next t ↔
      (s.phase = .absorb ∧ ∃ m, absorbBytes Config.wiring d s = .next m ∧ t = respondOk [] m) ∨
      (s.phase ≠ .absorb ∧ t = raiseError .ePhase s) := writeWith_eq_next

theorem finishWith_eq_next {wr : Wiring} {mk : Marker127} {s t : State} :
    finishWith wr mk s = .next t ↔
      (s.phase = .absorb ∧ ∃ m, padAndCompress wr mk s = .next m ∧ t = respondOk [] { m with fill := 0, phase := .done }) ∨
      (s.phase ≠ .absorb ∧ t = raiseError .ePhase s) := by
  unfold finishWith
  split
  · next h => simp only [andThen_eq_next, next_eq_next, h, true_and, false_and, or_false, ne_eq, not_true_eq_false]
  · next h => simp only [next_eq_next, h, true_and, false_and, false_or, ne_eq, not_false_eq_true]

theorem execFinish_eq_next {s t : State} :
    execFinish s = .next t ↔
      (s.phase = .absorb ∧ ∃ m, padAndCompress Config.wiring .drop s = .next m ∧
        t = respondOk [] { m with fill := 0, phase := .done }) ∨
      (s.phase ≠ .absorb ∧ t = raiseError .ePhase s) := finishWith_eq_next

theorem execReadb_eq_next {s t : State} :
    execReadb s = .next t ↔
      (s.phase = .done ∧ t = respondOk (toBytes s.h) s) ∨ (s.phase ≠ .done ∧ t = raiseError .ePhase s) := by
  unfold execReadb
  split
  · next h => simp only [next_eq_next, h, true_and, false_and, or_false, ne_eq, not_true_eq_false]
  · next h => simp only [next_eq_next, h, true_and, false_and, false_or, ne_eq, not_false_eq_true]

theorem execReadh_eq_next {s t : State} :
    execReadh s = .next t ↔
      (s.phase = .done ∧ t = respondOk ((toHex Config.hexOrder s.h).map asciiByte) s) ∨
      (s.phase ≠ .done ∧ t = raiseError .ePhase s) := by
  unfold execReadh readhWith
  split
  · next h => simp only [next_eq_next, h, true_and, false_and, or_false, ne_eq, not_true_eq_false]
  · next h => simp only [next_eq_next, h, true_and, false_and, false_or, ne_eq, not_false_eq_true]

theorem execStatus_eq_next {s t : State} : execStatus s = .next t ↔ t = respondOk (statusPayload s) s :=
  next_eq_next

theorem execAbort_eq_next {s t : State} :
    execAbort s = .next t ↔ t = respondOk [] { s with err := errByte .eIo, phase := .failed } :=
  next_eq_next

end Sys2Proof.Machine
end

