-- ==== Sys2Proof/Laws/PerInstr.lean ====
section
/-! SUPPORT. Statements made once per instruction. -/

namespace Sys2Proof.Laws.FrameShape

/-- A well-formed command's frame starts with an opcode of the map and has a length its row allows (spec/30_encoding.md R71). -/
def Statement (i : Instr) : Prop :=
  i.wf = true → ∃ r ∈ opcodeMap, (encodeFrame i).opcode = r.pattern ∧
    r.minLength ≤ (encodeFrame i).length ∧ (encodeFrame i).length ≤ r.maxLength

theorem setseed (seed : Seed) : Statement (.setseed seed) := fun _ =>
  ⟨⟨.setseed, 0xFF, 0x01, 9, 9⟩, by decide, rfl, by simp [encodeFrame, Frame.length, Instr.payload]⟩

theorem start : Statement .start := fun _ => ⟨⟨.start, 0xFF, 0x02, 1, 1⟩, by decide, rfl, by decide⟩

theorem write (data : List Byte) : Statement (.write data) := fun h =>
  ⟨⟨.write, 0xFF, 0x03, 2, Config.burstMax + 1⟩, by decide, rfl, by
    simpa [Instr.wf, encodeFrame, Frame.length, Instr.payload] using h⟩

theorem finish : Statement .finish := fun _ => ⟨⟨.finish, 0xFF, 0x04, 1, 1⟩, by decide, rfl, by decide⟩

theorem readb : Statement .readb := fun _ => ⟨⟨.readb, 0xFF, 0x05, 1, 1⟩, by decide, rfl, by decide⟩

theorem readh : Statement .readh := fun _ => ⟨⟨.readh, 0xFF, 0x06, 1, 1⟩, by decide, rfl, by decide⟩

theorem status : Statement .status := fun _ => ⟨⟨.status, 0xFF, 0x07, 1, 1⟩, by decide, rfl, by decide⟩

theorem abort : Statement .abort := fun _ => ⟨⟨.abort, 0xFF, 0x08, 1, 1⟩, by decide, rfl, by decide⟩

end Sys2Proof.Laws.FrameShape
end

