-- ==== Sys2Proof/Tests/Slice0.lean ====
section
/-! SUPPORT. Tests on small states, their expected results taken from the spec's tables and vectors (spec/95_test_vectors.md,
section numbers below), and a witness for the hypotheses of each statement. Digests are those of the instance REF0. -/

namespace Sys2Proof.Machine.Test

/-! ### Helpers -/

/-- A state with a seed loaded and the given phase, FILL and BLK; ERR as the phase asks. -/
def demo (p : Phase) (fill : Byte) (m : Memory) : State :=
  { State.reset with seed := 0, seedValid := true, phase := p, err := if p = .failed then 3 else 0, fill := fill,
                     h := Vector.replicate 6 0, blk := m }

/-- The pattern message of the vectors: byte i is (i + 1) mod 256. -/
def pat (n : Nat) : List Byte := (List.range n).map fun i => BitVec.ofNat 8 (i + 1)

/-- BLK holding the given bytes from offset 0 on. -/
def cells (bs : List Byte) : Memory := bs.zipIdx.map fun c => (c.2, c.1)

/-- An open computation with `pat n` in the buffer and H = SeedExpand(0). -/
def filled (n : Nat) : State :=
  { demo .absorb (BitVec.ofNat 8 n) (cells (pat n)) with h := seedExpand 0 }

def withFrame (f : Frame) (s : State) : State := { s with inq := [.frame f] }

def isNext : Result → Bool
  | .next _ => true
  | _ => false

theorem of_isNext {r : Result} (h : isNext r = true) : ∃ t, r = .next t := by
  cases r with
  | next t => exact ⟨t, rfl⟩
  | fault => cases h
  | refused => cases h

/-- What a test looks at in a result. -/
def see {α : Type} (f : State → α) : Result → Option α
  | .next s => some (f s)
  | _ => none

/-- The control registers and the last answer. -/
structure Look where
  phase : Phase
  err : Byte
  fill : Byte
  seedValid : Bool
  answer : Option Response
  deriving DecidableEq

def look (s : State) : Look := ⟨s.phase, s.err, s.fill, s.seedValid, s.out.getLast?⟩

/-! ### Well-formedness -/

theorem test_wf_refuses_empty_write : (Instr.write []).wf = false := by decide

theorem test_wf_refuses_long_write : (Instr.write (List.replicate 4097 0)).wf = false := by decide +kernel

theorem test_wf_accepts_longest_write : (Instr.write (List.replicate 4096 0)).wf = true := by decide +kernel

/-! ### Decoding: words written out from R71 to R73 and section 3.10 -/

theorem test_decode_setseed : decode [0x01, 0xEF, 0xCD, 0xAB, 0x89, 0x67, 0x45, 0x23, 0x01] = .ok (.setseed 0x0123456789ABCDEF) := by
  decide

theorem test_decode_start : decode [0x02] = .ok .start := by decide

theorem test_decode_write : decode [0x03, 0x61, 0x62, 0x63] = .ok (.write [0x61, 0x62, 0x63]) := by decide

theorem test_decode_finish : decode [0x04] = .ok .finish := by decide

theorem test_decode_readb : decode [0x05] = .ok .readb := by decide

theorem test_decode_readh : decode [0x06] = .ok .readh := by decide

theorem test_decode_status : decode [0x07] = .ok .status := by decide

theorem test_decode_abort : decode [0x08] = .ok .abort := by decide

theorem test_decode_rejects :
    decode [] = .error .empty ∧ decode [0x00] = .error .illegal ∧ decode [0x09, 0x00] = .error .illegal ∧
    decode [0xFF, 0x01, 0x02] = .error .illegal ∧ decode [0x02, 0x00] = .error .format ∧ decode [0x03] = .error .format ∧
    decode [0x01, 0x00] = .error .format := by decide

theorem test_table_words :
    [1, 2, 3, 4, 5, 6, 7, 8].map (decodeTableWord 8) =
      [some (.setseed 0), some .start, some (.write [0]), some .finish, some .readb, some .readh, some .status, some .abort] := by
  decide

theorem test_first_step_after_reset :
    ([1, 2, 3, 4, 5, 6, 7, 8].all fun w => isNext (step (State.reset.withFetchWord 8 w))) = true := by decide

/-! ### Primitives: section 2 -/

theorem test_rotl : rotl 0x12345678 12 = 0x45678123 ∧ rotl 0x80000001 1 = 0x00000003 ∧ rotl 0x12345678 30 = 0x048D159E := by
  decide

theorem test_seed_expand_0 :
    seedExpand 0 = #v[0x209536F9, 0x1267A4BB, 0x41DED441, 0x5E918461, 0x64EA16ED, 0x7022568B] := by decide

theorem test_seed_expand_both_halves :
    seedExpand 0x0123456789ABCDEF = #v[0x671FFD82, 0xD069E2BC, 0xA4012BB0, 0xBEFEC888, 0x7E6F6EC8, 0x02B3E11C] := by decide

theorem test_seed_negative : seedOfInt (-2) = seedOfPayload [0xFE, 0xFF, 0xFF, 0xFF, 0xFF, 0xFF, 0xFF, 0xFF] := by decide

theorem test_boolean_functions :
    [f1, f2, f3, f4].map (fun f => f 0x0F0F0F0F 0x33333333 0x55555555) = [0x41414141, 0x69696969, 0x17171717, 0xABABABAB] := by
  decide

/-! ### Schedule and compression: sections 3.4 and 3.5 -/

theorem test_schedule_derived_words :
    let w := schedule fun o : Fin 64 => BitVec.ofNat 8 o.val
    (w[3], w[16], w[21], w[31]) = ((0x0F0E0D0C, 0x30303030, 0x36343230, 0x19110901) : Word × Word × Word × Word) := by
  decide +kernel

theorem test_update_order :
    iteration ref0 (schedule fun o : Fin 64 => (singleBlock [])[o.val]) 0 (seedExpand 0) 0 =
      #v[0xDCEE4FA2, 0x25B1391F, 0xCCC9B06D, 0x971D82A7, 0x2750486E, 0x3D299669] := by decide +kernel

theorem test_rounds :
    rounds ref0 (schedule fun o : Fin 64 => (singleBlock [])[o.val]) (seedExpand 0) =
      #v[0xBF9BA322, 0x4042779A, 0x51F2ED87, 0x63D042F6, 0x137EA8C5, 0xFA47E073] := by decide +kernel

/-! ### The commands: sections 3.1 to 3.3, 3.6, 3.9, programs P1 to P4 -/

theorem test_setseed : see look (execSetseed 0x2A State.reset) = some ⟨.idle, 0, 0, true, some ⟨0, []⟩⟩ := by decide

theorem test_setseed_in_absorb :
    see (fun s => (s.seed, look s)) (execSetseed 5 (filled 0)) = some (0, ⟨.failed, 3, 0, true, some ⟨3, []⟩⟩) := by decide

theorem test_start :
    see (fun s => (s.h, look s)) (execStart (demo .failed 77 [])) =
      some (#v[0x209536F9, 0x1267A4BB, 0x41DED441, 0x5E918461, 0x64EA16ED, 0x7022568B], ⟨.absorb, 0, 0, true, some ⟨0, []⟩⟩) := by
  decide

theorem test_start_without_seed : see look (execStart State.reset) = some ⟨.failed, 3, 0, false, some ⟨3, []⟩⟩ := by decide

theorem test_write_flushes_lazily :
    (see (fun s => (s.fill, s.h)) (writeWith ref0 [0x80] (filled 127)) = some (128, seedExpand 0)) ∧
    (see (fun s => (s.fill, s.blk.read 0, s.h)) (writeWith ref0 [0x81] (filled 128)) =
      some (1, some 0x81, #v[0xAF059660, 0xD9451E71, 0xE09E441A, 0x3D51044E, 0x256B193E, 0x0E724306])) := by
  decide +kernel

theorem test_write_in_idle : see look (execWrite [0x41] State.reset) = some ⟨.failed, 3, 0, false, some ⟨3, []⟩⟩ := by decide

theorem test_finish_empty :
    see (fun s => (s.h, s.fill, s.phase)) (finishWith ref0 .drop (filled 0)) =
      some (#v[0x8DB01CF0, 0xA52AD60A, 0x21DAC3D0, 0x4E8AF460, 0x76EA17B2, 0xFB33C690], 0, .done) := by decide +kernel

theorem test_finish_spill :
    see (fun s => (s.h, s.blk.read 123, s.blk.read 124)) (finishWith ref0 .drop (filled 123)) =
      some (#v[0xA45A53FA, 0x76AAE325, 0x6F4E43E9, 0x2C4EF40B, 0xA76B1FBF, 0xB31A2106], some 0, some 0x7B) := by
  decide +kernel

theorem test_padding_bytes :
    ((List.range' 120 8).map (padSingle 122 (cells (pat 122))).read =
      [0x79, 0x7A, 0x00, 0x80, 0x7A, 0x00, 0x00, 0x00].map some) ∧
    ((List.range' 120 8).map (padSpillFirst 126 (cells (pat 126))).read =
      [0x79, 0x7A, 0x7B, 0x7C, 0x7D, 0x7E, 0x00, 0x80].map some) ∧
    ((List.range' 120 8).map (padSpillFirst 127 (cells (pat 127))).read =
      [0x79, 0x7A, 0x7B, 0x7C, 0x7D, 0x7E, 0x7F, 0x00].map some) := by decide +kernel

theorem test_digest_two_blocks :
    digestState ref0 0 (pat 129) =
      #v[0xCEF9D285, 0xB5D6D8BE, 0x908E4405, 0x3C4CF41D, 0xE7EB5F52, 0x17AD140F] := by decide +kernel

/-- The first State of section 3.8. -/
def sampleH : Vector Word 6 := #v[0x8DB01CF0, 0xA52AD60A, 0x21DAC3D0, 0x4E8AF460, 0x76EA17B2, 0xFB33C690]

theorem test_readb :
    see (fun s => s.out) (execReadb { demo .done 0 [] with h := sampleH }) =
      some [⟨0, [0xF0, 0x1C, 0xB0, 0x8D, 0x0A, 0xD6, 0x2A, 0xA5, 0xD0, 0xC3, 0xDA, 0x21, 0x60, 0xF4, 0x8A, 0x4E, 0xB2, 0x17, 0xEA, 0x76,
        0x90, 0xC6, 0x33, 0xFB]⟩] := by decide

theorem test_readb_in_absorb : see look (execReadb (filled 0)) = some ⟨.failed, 3, 0, true, some ⟨3, []⟩⟩ := by decide

theorem test_readh :
    see (fun s => s.out.map fun r => (r.code, r.payload.length, r.payload.take 9)) (execReadh { demo .done 0 [] with h := sampleH }) =
      some [(0, 48, [0x46, 0x30, 0x31, 0x43, 0x42, 0x30, 0x38, 0x44, 0x30])] := by decide

theorem test_hex_numeric : (toHex .numeric sampleH).take 10 = ['8', 'D', 'B', '0', '1', 'C', 'F', '0', 'A', '5'] := by decide

theorem test_status :
    see look (execStatus (filled 3)) = some ⟨.absorb, 0, 3, true, some ⟨0, [0x01, 0x00, 0x03, 0x01]⟩⟩ := by decide

theorem test_abort : see look (execAbort (filled 3)) = some ⟨.failed, 4, 3, true, some ⟨0, []⟩⟩ := by decide

theorem test_checks_in_order :
    see look (step (withFrame ⟨0x03, []⟩ State.reset)) = some ⟨.failed, 2, 0, false, some ⟨2, []⟩⟩ ∧
    see look (step (withFrame ⟨0x09, [0]⟩ State.reset)) = some ⟨.failed, 1, 0, false, some ⟨1, []⟩⟩ := by decide

theorem test_reset_abandons :
    see look (step { filled 3 with inq := [.reset (some ⟨0x04, []⟩)] }) = some ⟨.idle, 0, 0, false, none⟩ := by decide

/-! ### The assembler: R80 -/

theorem test_assemble_setseed :
    assembleLine ['S', 'E', 'T', 'S', 'E', 'E', 'D', ' ', '-', '1'] = some (.setseed 0xFFFFFFFFFFFFFFFF) ∧
    assembleLine ['S', 'E', 'T', 'S', 'E', 'E', 'D', ' ', '0', 'x', '2', 'A'] = some (.setseed 42) ∧
    assembleLine ['S', 'E', 'T', 'S', 'E', 'E', 'D', ' ', '0', 'x', '2', 'a'] = some (.setseed 42) ∧
    assembleLine ['S', 'E', 'T', 'S', 'E', 'E', 'D', ' ', '2', 'A'] = none := by decide

theorem test_assemble_write :
    assembleLine ['W', 'R', 'I', 'T', 'E', ' ', '6', '1', ' ', '7', 'A'] = some (.write [0x61, 0x7A]) ∧
    assembleLine ['W', 'R', 'I', 'T', 'E', ' ', '"', 'a', 'b', '"'] = some (.write [0x61, 0x62]) ∧
    assembleLine ['W', 'R', 'I', 'T', 'E', ' ', '0', '0', '*', '3'] = some (.write [0, 0, 0]) := by decide

/-! ### Witnesses: for each statement with hypotheses, a state and operands that meet them together -/

theorem inv_reset : Inv State.reset := by constructor <;> decide

theorem inv_idle : Inv (demo .idle 0 []) := by constructor <;> decide

theorem inv_failed : Inv (demo .failed 77 []) := by constructor <;> decide

theorem inv_filled_0 : Inv (filled 0) := by constructor <;> decide +kernel

theorem inv_filled_122 : Inv (filled 122) := by constructor <;> decide +kernel

theorem inv_filled_123 : Inv (filled 123) := by constructor <;> decide +kernel

theorem inv_filled_127 : Inv (filled 127) := by constructor <;> decide +kernel

theorem inv_filled_128 : Inv (filled 128) := by constructor <;> decide +kernel

theorem inv_done : Inv (demo .done 0 []) := by constructor <;> decide

theorem witness_DecodeEncodeRoundTrip : (Instr.write [0x61]).wf = true ∧ (Instr.setseed 42).wf = true := by decide

theorem witness_EncodeDecodeRoundTrip : decode [0x03, 0x61] = .ok (.write [0x61]) := by decide

theorem witness_SeedOfIntegerIsTwosComplement :
    ((-2 : Int) ^ 63 ≤ 2 ^ 64 - 1 ∧ (2 : Int) ^ 64 - 1 < 2 ^ 64) ∧ (-2 ^ 63 ≤ (-2 : Int) ^ 63 ∧ (-2 : Int) ^ 63 < 2 ^ 64) := by
  decide

theorem witness_StepRunsDecodedCommand :
    ∃ (s : State) (f : Frame), s.inq = .frame f :: [] ∧ decode f.bytes = .ok (.write [0x61]) :=
  ⟨withFrame ⟨0x03, [0x61]⟩ State.reset, ⟨0x03, [0x61]⟩, rfl, by decide⟩

theorem witness_StepAnswersIllegalOpcode :
    (∃ s : State, s.inq = .frame ⟨0x00, []⟩ :: []) ∧
    (∃ s : State, s.inq = .frame ⟨0x09, [0]⟩ :: [] ∧ 0x09 ≤ (⟨0x09, [0]⟩ : Frame).opcode.toNat) :=
  ⟨⟨withFrame ⟨0x00, []⟩ State.reset, rfl⟩, ⟨withFrame ⟨0x09, [0]⟩ State.reset, rfl, by decide⟩⟩

theorem witness_StepAnswersWrongLength :
    (∃ s : State, s.inq = .frame ⟨0x01, List.replicate 7 0⟩ :: [] ∧ (⟨0x01, List.replicate 7 0⟩ : Frame).length ≠ 9) ∧
    (∃ s : State, s.inq = .frame ⟨0x03, []⟩ :: [] ∧ (⟨0x03, []⟩ : Frame).length = 1) ∧
    (∃ s : State, s.inq = .frame ⟨0x03, List.replicate 4097 0⟩ :: [] ∧ 4097 < (⟨0x03, List.replicate 4097 0⟩ : Frame).length) ∧
    (∃ s : State, s.inq = .frame ⟨0x08, [0]⟩ :: [] ∧ (⟨0x08, [0]⟩ : Frame).length ≠ 1) :=
  ⟨⟨withFrame _ State.reset, rfl, by decide⟩, ⟨withFrame _ State.reset, rfl, by decide⟩,
    ⟨withFrame _ State.reset, rfl, by decide +kernel⟩, ⟨withFrame _ State.reset, rfl, by decide⟩⟩

theorem witness_StepWaitsWithoutInput : State.reset.inq = [] := rfl

theorem witness_ResetInputResets : ∃ s : State, s.phase = .absorb ∧ s.inq = .reset (some ⟨0x04, []⟩) :: [] :=
  ⟨{ filled 3 with inq := [.reset (some ⟨0x04, []⟩)] }, rfl, rfl⟩

/-- A frame at the port does not touch the invariant. -/
theorem inv_withFrame (f : Frame) {s : State} (h : Inv s) : Inv (withFrame f s) :=
  ⟨h.fill_le, h.blk_wf, h.err_le, h.err_zero, h.seeded, h.fill_zero, h.tail_written⟩

/-- Every cell of the table: any frame at all, in each phase, with and without a seed, with FILL at the edges. -/
theorem witness_StepFollowsPhaseTable (f : Frame) :
    ∀ s ∈ [State.reset, demo .idle 0 [], filled 0, filled 122, filled 123, filled 127, filled 128, demo .done 0 [], demo .failed 77 []],
      Inv (withFrame f s) ∧ (withFrame f s).inq = .frame f :: [] := by
  simp only [List.forall_mem_cons, List.not_mem_nil, false_imp_iff, implies_true, and_true]
  exact ⟨⟨inv_withFrame f inv_reset, rfl⟩, ⟨inv_withFrame f inv_idle, rfl⟩, ⟨inv_withFrame f inv_filled_0, rfl⟩,
    ⟨inv_withFrame f inv_filled_122, rfl⟩, ⟨inv_withFrame f inv_filled_123, rfl⟩, ⟨inv_withFrame f inv_filled_127, rfl⟩,
    ⟨inv_withFrame f inv_filled_128, rfl⟩, ⟨inv_withFrame f inv_done, rfl⟩, ⟨inv_withFrame f inv_failed, rfl⟩⟩

theorem witness_ResponseShape :
    ∃ s t : State, s.inq = .frame ⟨0x05, []⟩ :: [] ∧ step s = .next t ∧ t.phase = .done :=
  ⟨withFrame ⟨0x05, []⟩ (demo .done 0 []), _, rfl, rfl, rfl⟩

theorem witness_ErrorEntryIsPrecise :
    ∃ (s t : State) (r : Response), s.inq = .frame ⟨0x04, []⟩ :: [] ∧ step s = .next t ∧ t.out = s.out ++ [r] ∧ r.code ≠ 0x00 :=
  ⟨withFrame ⟨0x04, []⟩ (demo .idle 0 []), _, ⟨0x03, []⟩, rfl, rfl, rfl, by decide⟩

theorem witness_PhaseErrorsExactly :
    Spec.phaseError (.setseed 0) (filled 0) ∧ Spec.phaseError .start State.reset ∧ Spec.phaseError .finish State.reset ∧
      ¬Spec.phaseError .finish (filled 0) ∧ exec .status State.reset = .next (respondOk [0, 0, 0, 0] State.reset) :=
  ⟨rfl, rfl, .inl rfl, by simp [Spec.phaseError, filled, demo], rfl⟩

theorem witness_SetseedLoadsSeed : (demo .failed 77 []).phase ≠ .absorb ∧ State.reset.phase ≠ .absorb := by decide

theorem witness_SeedExpandLines :
    ∃ s1 s2 : Word, s1.toNat = (0x0123456789ABCDEF : Seed).toNat % 2 ^ 32 ∧ s2.toNat = (0x0123456789ABCDEF : Seed).toNat / 2 ^ 32 :=
  ⟨0x89ABCDEF, 0x01234567, by decide, by decide⟩

theorem witness_StartOpensComputation : (demo .done 0 []).seedValid = true ∧ (filled 77).seedValid = true := ⟨rfl, rfl⟩

theorem witness_WriteAbsorbsItsBytes :
    (Inv (filled 0) ∧ Inv (filled 127) ∧ Inv (filled 128)) ∧ (filled 128).phase = .absorb ∧ 1 ≤ [(0x61 : Byte)].length ∧
      (filled 0).fill.toNat + (List.replicate 128 (0 : Byte)).length ≤ 128 :=
  ⟨⟨inv_filled_0, inv_filled_127, inv_filled_128⟩, rfl, by decide, by decide +kernel⟩

theorem witness_WriteFrame :
    (∃ t, exec (.write [0x61]) (filled 128) = .next t) ∧ (∃ t, exec (.write [0x61]) State.reset = .next t) :=
  ⟨of_isNext (by decide +kernel), of_isNext (by decide)⟩

theorem witness_FinishFoldsTailBlocks :
    (Inv (filled 0) ∧ Inv (filled 122) ∧ Inv (filled 123) ∧ Inv (filled 127) ∧ Inv (filled 128)) ∧
      (pat 127).length = (filled 127).fill.toNat ∧ ∀ o : Nat, o < (pat 127).length → (filled 127).blk.read o = (pat 127)[o]? :=
  ⟨⟨inv_filled_0, inv_filled_122, inv_filled_123, inv_filled_127, inv_filled_128⟩, by decide +kernel, by decide +kernel⟩

theorem witness_FinishLeavesPaddedBlock :
    (Inv (filled 0) ∧ Inv (filled 122) ∧ Inv (filled 123) ∧ Inv (filled 127) ∧ Inv (filled 128)) ∧ (filled 122).phase = .absorb :=
  ⟨⟨inv_filled_0, inv_filled_122, inv_filled_123, inv_filled_127, inv_filled_128⟩, rfl⟩

/-- The buffers of `filled 122`, `filled 123` and `filled 127` as FINISH compresses them, written out from R55 and R104. -/
theorem witness_FinishCompressesPaddedBuffers :
    (∀ o : Nat, o < 128 → (cells (pat 122 ++ [0x00, 0x80, 0x7A, 0x00, 0x00, 0x00])).read o =
      if o < 122 then (filled 122).blk.read o else if o = 122 + 1 then some 0x80 else if o = 124 then some (filled 122).fill
      else some 0x00) ∧
    (∀ o : Nat, o < 128 → (cells (pat 123 ++ [0x00, 0x80, 0x00, 0x00, 0x00])).read o =
      if o < 123 then (filled 123).blk.read o else if o = 123 + 1 then some 0x80 else some 0x00) ∧
    (∀ o : Nat, o < 128 → (cells (pat 127 ++ [0x00])).read o =
      if o < 127 then (filled 127).blk.read o else if o = 127 + 1 then some 0x80 else some 0x00) ∧
    (∀ o : Nat, o < 128 → (cells (List.replicate 124 0 ++ [0x7F, 0x00, 0x00, 0x00])).read o =
      if o = 124 then some (filled 127).fill else some 0x00) ∧
    (cells (pat 122 ++ [0x00, 0x80, 0x7A, 0x00, 0x00, 0x00])).wf = true ∧ (cells (pat 123 ++ [0x00, 0x80, 0x00, 0x00, 0x00])).wf = true ∧
    (cells (pat 127 ++ [0x00])).wf = true ∧ (cells (List.replicate 124 0 ++ [0x7F, 0x00, 0x00, 0x00])).wf = true := by
  decide +kernel

theorem witness_WriteByteFlushesFullBuffer :
    (∃ m : Memory, m.wf = true ∧ m.read ((filled 128).fill.toNat % 128) = some 0xEE ∧
      ∀ o, o ≠ (filled 128).fill.toNat % 128 → m.read o = (filled 128).blk.read o) ∧
    (∃ m : Memory, m.wf = true ∧ m.read ((filled 127).fill.toNat % 128) = some 0xEE ∧
      ∀ o, o ≠ (filled 127).fill.toNat % 128 → m.read o = (filled 127).blk.read o) :=
  ⟨⟨_, Memory.wf_write 0xEE (by decide) inv_filled_128.blk_wf, Memory.read_write_same .., fun _ h => Memory.read_write_other _ _ h⟩,
    ⟨_, Memory.wf_write 0xEE (by decide) inv_filled_127.blk_wf, Memory.read_write_same .., fun _ h => Memory.read_write_other _ _ h⟩⟩

theorem witness_FinishFrame :
    (∃ t, exec .finish (filled 0) = .next t) ∧ (∃ t, exec .finish (filled 127) = .next t) ∧
      (∃ t, exec .finish (filled 128) = .next t) ∧ (∃ t, exec .finish State.reset = .next t) :=
  ⟨of_isNext (by decide +kernel), of_isNext (by decide +kernel), of_isNext (by decide +kernel), of_isNext (by decide)⟩

theorem witness_Marker127Alternatives : (filled 127).phase = .absorb ∧ (filled 127).fill = 127 ∧ (filled 126).fill ≠ 127 := by decide

theorem witness_ReadbAnswersDigest : (demo .done 0 []).phase = .done := rfl

theorem witness_ReadhAnswersHexString : (demo .done 0 []).phase = .done := rfl

theorem witness_CommandsWithoutStoreFrame :
    (∀ d, Instr.start ≠ .write d) ∧ Instr.start ≠ .finish ∧ ∃ t, exec .start (filled 3) = .next t :=
  ⟨by simp, by simp, _, rfl⟩

theorem witness_RotlMovesBits : (1 : Nat) ≤ 31 ∧ (31 : Nat) ≤ 31 ∧ (31 : Nat) < 32 := by decide

theorem witness_SpillSecondSchedulesZero : ((123 : Nat) ≤ 123 ∧ 123 ≤ 127) ∧ (123 : Nat) ≤ 127 ∧ 127 ≤ 127 := by decide

theorem witness_HexDigitPlacement :
    ((0 : BitVec 4).toNat ≤ 9 ∧ (9 : BitVec 4).toNat ≤ 9) ∧ 10 ≤ (10 : BitVec 4).toNat ∧ 10 ≤ (15 : BitVec 4).toNat := by decide

theorem witness_CompressRunsScheduleUpdatesFinalization :
    ∃ b : Fin 64 → Byte, ∀ o : Fin 64, (filled 64).blk.read o.val = some (b o) := ⟨fun o => BitVec.ofNat 8 (o.val + 1), by decide +kernel⟩

theorem witness_CompressIgnoresUpperHalf :
    (∃ t, compress ref0 (filled 64) = .next t) ∧
      ∀ o : Nat, o < 64 → (Memory.write (filled 64).blk 64 0xFF).read o = (filled 64).blk.read o :=
  ⟨of_isNext (by decide +kernel), by decide +kernel⟩

theorem witness_StepKeepsInvariant : ∃ s t : State, Inv s ∧ s.phase = .absorb ∧ step s = .next t ∧ t.phase = .failed :=
  ⟨withFrame ⟨0x08, []⟩ (filled 0), _, by constructor <;> decide +kernel, rfl, rfl, rfl⟩

theorem witness_OnlyStartOrResetLeavesFailed :
    (∃ s t : State, s.phase = .failed ∧ step s = .next t ∧ t.phase ≠ .failed ∧ s.inq = [.frame ⟨0x02, []⟩]) ∧
    (∃ s t : State, s.phase = .failed ∧ step s = .next t ∧ t.phase ≠ .failed ∧ s.inq = [.reset none]) :=
  ⟨⟨withFrame ⟨0x02, []⟩ (demo .failed 77 []), _, rfl, rfl, by decide, rfl⟩,
    ⟨{ demo .failed 77 [] with inq := [.reset none] }, _, rfl, rfl, by decide, rfl⟩⟩

theorem witness_SeedChangesOnlyBySetseed :
    ∃ s t : State, step s = .next t ∧ t.seedValid ≠ s.seedValid ∧ s.inq = [.frame ⟨0x01, List.replicate 8 0⟩] :=
  ⟨withFrame ⟨0x01, List.replicate 8 0⟩ State.reset, _, rfl, by decide, rfl⟩

theorem witness_DigestStateChangesOnlyByHashing : ∃ s t : State, step s = .next t ∧ t.h ≠ s.h :=
  ⟨withFrame ⟨0x02, []⟩ (demo .idle 0 []), _, rfl, by decide⟩

theorem witness_NoDigestUntilStart :
    ∃ s : State, s.phase = .failed ∧ (∀ f ∈ [(⟨0x03, [0x61]⟩ : Frame), ⟨0x02, [0]⟩, ⟨0x08, []⟩], isStart f = false) ∧
      s.inq = [(⟨0x03, [0x61]⟩ : Frame), ⟨0x02, [0]⟩, ⟨0x08, []⟩].map .frame ++ .frame ⟨0x05, []⟩ :: [] :=
  ⟨{ demo .failed 77 [] with inq := [.frame ⟨0x03, [0x61]⟩, .frame ⟨0x02, [0]⟩, .frame ⟨0x08, []⟩, .frame ⟨0x05, []⟩] },
    rfl, by decide, rfl⟩

theorem witness_AnswersHideDataOutsideDone :
    ∃ s s' t t' : State, s.phase ≠ .done ∧ s'.phase = s.phase ∧ s'.err = s.err ∧ s'.fill = s.fill ∧
      s'.seedValid = s.seedValid ∧ s.h ≠ s'.h ∧ s.inq = [.frame ⟨0x07, []⟩] ∧ s'.inq = [.frame ⟨0x07, []⟩] ∧
      step s = .next t ∧ step s' = .next t' :=
  ⟨withFrame ⟨0x07, []⟩ (filled 0), withFrame ⟨0x07, []⟩ { filled 0 with h := sampleH }, _, _, by decide, rfl, rfl, rfl, rfl,
    by decide, rfl, rfl, rfl, rfl⟩

theorem witness_WriteChunksDoNotMatter :
    Inv (filled 127) ∧ (filled 127).phase = .absorb ∧ [[(1 : Byte), 2], [3]].flatten = [[(1 : Byte)], [2, 3]].flatten :=
  ⟨inv_filled_127, rfl, rfl⟩

theorem witness_HashCommandsComputeDigest : Inv (demo .failed 77 []) ∧ (demo .failed 77 []).seedValid = true := ⟨inv_failed, rfl⟩

theorem witness_SameSeedSameBytesSameDigest :
    Inv (demo .idle 0 []) ∧ Inv (filled 128) ∧ (demo .idle 0 []).seedValid = true ∧ (filled 128).seedValid = true ∧
      (demo .idle 0 []).seed = (filled 128).seed := ⟨inv_idle, inv_filled_128, rfl, rfl, rfl⟩

theorem witness_DigestDependsOnLowerHalves :
    pat 64 ≠ pat 70 ∧ (blocks (pat 64)).map (fun b => b.toList.take 64) = (blocks (pat 70)).map (fun b => b.toList.take 64) := by
  decide +kernel

/-- The view of an open computation with three bytes. -/
def sampleView : HashView := ⟨some 0, 0, pat 3, .absorb, 0, 3⟩

theorem witness_EngineRefinesMessageHasher :
    Implements (withFrame ⟨0x04, []⟩ (filled 3)) sampleView ∧ (withFrame ⟨0x04, []⟩ (filled 3)).inq = [.frame ⟨0x04, []⟩] := by
  refine ⟨⟨rfl, ?_, rfl, rfl, by decide, by decide, fun _ => by decide, fun _ => rfl, fun _ => ?_, fun h => by cases h⟩, rfl⟩
  · intro x h
    cases h
    rfl
  · intro o h
    have : o = 0 ∨ o = 1 ∨ o = 2 := by
      simp only [sampleView] at h
      omega
    rcases this with rfl | rfl | rfl <;> rfl

theorem witness_EnginesAreIndependent :
    (∀ e ∈ [withFrame ⟨0x07, []⟩ State.reset, withFrame ⟨0x04, []⟩ (filled 127)], Inv e) ∧
    ∃ es e1 e2 : Engines, stepEngine 0 es = .next e1 ∧ stepEngine 1 e1 = .next e2 ∧ es.length = 2 :=
  ⟨by
    simp only [List.forall_mem_cons, List.not_mem_nil, false_imp_iff, implies_true, and_true]
    exact ⟨inv_withFrame _ inv_reset, inv_withFrame _ inv_filled_127⟩,
   [withFrame ⟨0x07, []⟩ State.reset, withFrame ⟨0x08, []⟩ State.reset], _, _, rfl, rfl, rfl⟩

end Sys2Proof.Machine.Test
end

section
/-! Rotation: `rotl` as `BitVec.rotateLeft`, its bits and its value as a number (spec/00_scope.md R10). -/

namespace Sys2Proof.Machine

/-- For an amount below the word size the model's `rotl` is the library's rotation, whose bit lemmas then apply. -/
theorem rotl_eq_rotateLeft (x : Word) {n : Nat} (hn : n < 32) : rotl x n = x.rotateLeft n := by
  rw [BitVec.rotateLeft_def, Nat.mod_eq_of_lt hn, rotl]

/-- The two cases are the two shifts: a bit that stays below 32 is moved by `<<`, one that wraps around by `>>`. -/
theorem getLsbD_rotl_add_mod (x : Word) {n i : Nat} (hn : n < 32) (hi : i < 32) :
    (rotl x n).getLsbD ((i + n) % 32) = x.getLsbD i := by
  rw [rotl_eq_rotateLeft x hn, BitVec.getLsbD_rotateLeft_of_le hn]
  rcases Nat.lt_or_ge (i + n) 32 with hstay | hwrap
  · have hpos : (i + n) % 32 = i + n := Nat.mod_eq_of_lt hstay
    simp [hpos, hstay]
  · have hpos : (i + n) % 32 = i + n - 32 := by omega
    have hlow : i + n - 32 < n := by omega
    have hback : 32 - n + (i + n - 32) = i := by omega
    simp [hpos, hlow, hback]

theorem toNat_rotl (x : Word) (n : Nat) :
    (rotl x n).toNat = (x.toNat <<< n) % 2 ^ 32 ||| x.toNat >>> (32 - n) := by
  rw [rotl, BitVec.toNat_or, BitVec.toNat_shiftLeft, BitVec.toNat_ushiftRight]

end Sys2Proof.Machine

open Sys2Proof.Machine

/-- Settles O30: the bits by `getLsbD_rotl_add_mod`, the number by `toNat_rotl`. -/
theorem rotlMovesBits : Obligations.RotlMovesBits :=
  fun x n _ _ hn hi => ⟨getLsbD_rotl_add_mod x (Nat.lt_succ_of_le hn) hi, toNat_rotl x n⟩

end

section
/-! The decoder by the spec's own tables: a frame is a command where byte 0 names one and its length is legal (spec/30_encoding.md
R71, R78, R79). -/

namespace Sys2Proof

open Sys2Proof.Spec

/-- The command's name, without its operands. -/
def Instr.op : Instr → Op
  | .setseed _ => .setseed
  | .start => .start
  | .write _ => .write
  | .finish => .finish
  | .readb => .readb
  | .readh => .readh
  | .status => .status
  | .abort => .abort

@[simp] theorem op_withPayload (op : Op) (p : List Byte) : (op.withPayload p).op = op := by
  cases op <;> rfl

/-- The row of the opcode map that belongs to a command. -/
def rowOf : Op → OpRow
  | .setseed => ⟨.setseed, 0xFF, 0x01, 9, 9⟩
  | .start => ⟨.start, 0xFF, 0x02, 1, 1⟩
  | .write => ⟨.write, 0xFF, 0x03, 2, 4097⟩
  | .finish => ⟨.finish, 0xFF, 0x04, 1, 1⟩
  | .readb => ⟨.readb, 0xFF, 0x05, 1, 1⟩
  | .readh => ⟨.readh, 0xFF, 0x06, 1, 1⟩
  | .status => ⟨.status, 0xFF, 0x07, 1, 1⟩
  | .abort => ⟨.abort, 0xFF, 0x08, 1, 1⟩

@[simp] theorem rowOf_op (op : Op) : (rowOf op).op = op := by
  cases op <;> rfl

/-- The opcode map selects the row of the command that byte 0 names. -/
theorem opRow_eq_map_opOf (b : Byte) : opRow b = (opOf b).map rowOf := by
  rw [opRow_eq, opOf]
  split_ifs <;> rfl

theorem legalLength_iff (op : Op) (n : Nat) :
    legalLength op n = true ↔ (rowOf op).minLength ≤ n ∧ n ≤ (rowOf op).maxLength := by
  cases op <;> simp only [legalLength, rowOf, Bool.and_eq_true, decide_eq_true_eq] <;> omega

theorem opOf_opcode (i : Instr) : opOf i.opcode = some i.op := by
  cases i <;> rfl

/-- Each command has one opcode. -/
theorem opOf_eq_some {b : Byte} {op : Op} (p : List Byte) (h : opOf b = some op) : b = (op.withPayload p).opcode := by
  unfold opOf at h
  split_ifs at h <;> cases h <;> assumption

theorem decodeFrame_of_unknown {f : Frame} (h : opOf f.opcode = none) : decodeFrame f = .error .eIllegal := by
  simp [decodeFrame, opRow_eq_map_opOf, h]

/-- A known opcode: the length decides. -/
theorem decodeFrame_of_known {f : Frame} {op : Op} (h : opOf f.opcode = some op) :
    decodeFrame f = if legalLength op f.length then .ok (op.withPayload f.payload) else .error .eFormat := by
  simp [decodeFrame, opRow_eq_map_opOf, h, legalLength_iff]

theorem decodeFrame_eq_ok {f : Frame} {i : Instr} :
    decodeFrame f = .ok i ↔ f.opcode = i.opcode ∧ legalLength i.op f.length = true ∧ i = i.op.withPayload f.payload := by
  constructor
  · intro h
    rcases ho : opOf f.opcode with _ | op
    · rw [decodeFrame_of_unknown ho] at h
      cases h
    · rw [decodeFrame_of_known ho] at h
      split at h
      · next hl =>
        cases h
        exact ⟨opOf_eq_some f.payload ho, by simpa using hl, by simp⟩
      · cases h
  · rintro ⟨ho, hl, hi⟩
    rw [decodeFrame_of_known (ho ▸ opOf_opcode i), if_pos hl, ← hi]

theorem frame_of_decode_setseed {f : Frame} {x : Seed} (h : decodeFrame f = .ok (.setseed x)) :
    ∃ p, f = ⟨0x01, p⟩ ∧ p.length = 8 ∧ x = seedOfPayload p := by
  obtain ⟨op, p⟩ := f
  obtain ⟨ho, hl, hx⟩ := decodeFrame_eq_ok.mp h
  have ho : op = 0x01 := ho
  have hl : p.length + 1 = 9 := of_decide_eq_true hl
  exact ⟨p, ho ▸ rfl, by omega, Instr.setseed.inj hx⟩

theorem frame_of_decode_start {f : Frame} (h : decodeFrame f = .ok .start) : f = ⟨0x02, []⟩ := by
  obtain ⟨op, p⟩ := f
  obtain ⟨ho, hl, -⟩ := decodeFrame_eq_ok.mp h
  have ho : op = 0x02 := ho
  have hl : p.length + 1 = 1 := of_decide_eq_true hl
  rw [ho, List.eq_nil_of_length_eq_zero (Nat.succ.inj hl)]

theorem frame_eq_of_decode {f : Frame} {i : Instr} (h : decodeFrame f = .ok i) : f = ⟨i.opcode, f.payload⟩ :=
  (decodeFrame_eq_ok.mp h).1 ▸ rfl

end Sys2Proof
end

section
/-! What a command can do, said once for all of them: refused with E_PHASE (spec/60_exceptions.md R183), or its meaning. -/

namespace Sys2Proof.Machine

open Sys2Proof.Spec

/-- The next states of a command, with the condition under which each is taken. -/
inductive Effect : Instr → State → State → Prop
  /-- Error entry (R183, R189). -/
  | refused {i : Instr} {s : State} (h : phaseError i s) : Effect i s (raiseError .ePhase s)
  | setseed {s : State} (x : Seed) (h : s.phase ≠ .absorb) :
      Effect (.setseed x) s (respondOk [] { s with seed := x, seedValid := true })
  | start {s : State} (h : s.seedValid = true) :
      Effect .start s (respondOk [] (openComputation (seedExpand s.seed) s))
  | write {s m : State} (d : List Byte) (h : s.phase = .absorb) (hm : absorbBytes Config.wiring d s = .next m) :
      Effect (.write d) s (respondOk [] m)
  | finish {s m : State} (h : s.phase = .absorb) (hm : padAndCompress Config.wiring .drop s = .next m) :
      Effect .finish s (respondOk [] { m with fill := 0, phase := .done })
  | readb {s : State} (h : s.phase = .done) : Effect .readb s (respondOk (toBytes s.h) s)
  | readh {s : State} (h : s.phase = .done) :
      Effect .readh s (respondOk ((toHex Config.hexOrder s.h).map asciiByte) s)
  | status (s : State) : Effect .status s (respondOk (statusPayload s) s)
  | abort (s : State) : Effect .abort s (respondOk [] { s with err := errByte .eIo, phase := .failed })

theorem phase_ne_absorb_iff {p : Phase} : p ≠ .absorb ↔ p = .idle ∨ p = .done ∨ p = .failed := by
  cases p <;> decide

theorem phase_ne_done_iff {p : Phase} : p ≠ .done ↔ p = .idle ∨ p = .absorb ∨ p = .failed := by
  cases p <;> decide

/-- The inversion of `exec`: a command that answers had one of these effects. -/
theorem exec_effect {i : Instr} {s t : State} (h : exec i s = .next t) : Effect i s t := by
  cases i with
  | setseed x =>
    obtain ⟨hp, rfl⟩ | ⟨hp, rfl⟩ := execSetseed_eq_next.mp h
    · exact .refused hp
    · exact .setseed x hp
  | start =>
    obtain ⟨hv, rfl⟩ | ⟨hv, rfl⟩ := execStart_eq_next.mp h
    · exact .start hv
    · exact .refused hv
  | write d =>
    obtain ⟨hp, m, hm, rfl⟩ | ⟨hp, rfl⟩ := execWrite_eq_next.mp h
    · exact .write d hp hm
    · exact .refused (phase_ne_absorb_iff.mp hp)
  | finish =>
    obtain ⟨hp, m, hm, rfl⟩ | ⟨hp, rfl⟩ := execFinish_eq_next.mp h
    · exact .finish hp hm
    · exact .refused (phase_ne_absorb_iff.mp hp)
  | readb =>
    obtain ⟨hp, rfl⟩ | ⟨hp, rfl⟩ := execReadb_eq_next.mp h
    · exact .readb hp
    · exact .refused (phase_ne_done_iff.mp hp)
  | readh =>
    obtain ⟨hp, rfl⟩ | ⟨hp, rfl⟩ := execReadh_eq_next.mp h
    · exact .readh hp
    · exact .refused (phase_ne_done_iff.mp hp)
  | status => exact execStatus_eq_next.mp h ▸ .status s
  | abort => exact execAbort_eq_next.mp h ▸ .abort s

/-- A command in a cell "FAILED, E_PHASE" enters the error. -/
theorem exec_of_phaseError {i : Instr} {s : State} (h : phaseError i s) : exec i s = .next (raiseError .ePhase s) := by
  cases i with
  | setseed x => exact execSetseed_eq_next.mpr (.inl ⟨h, rfl⟩)
  | start => exact execStart_eq_next.mpr (.inr ⟨h, rfl⟩)
  | write d => exact execWrite_eq_next.mpr (.inr ⟨phase_ne_absorb_iff.mpr h, rfl⟩)
  | finish => exact execFinish_eq_next.mpr (.inr ⟨phase_ne_absorb_iff.mpr h, rfl⟩)
  | readb => exact execReadb_eq_next.mpr (.inr ⟨phase_ne_done_iff.mpr h, rfl⟩)
  | readh => exact execReadh_eq_next.mpr (.inr ⟨phase_ne_done_iff.mpr h, rfl⟩)
  | status => exact h.elim
  | abort => exact h.elim

theorem exec_of_effect {i : Instr} {s t : State} (h : Effect i s t) : exec i s = .next t := by
  cases h with
  | refused h => exact exec_of_phaseError h
  | setseed x h => exact execSetseed_eq_next.mpr (.inr ⟨h, rfl⟩)
  | start h => exact execStart_eq_next.mpr (.inl ⟨h, rfl⟩)
  | write d h hm => exact execWrite_eq_next.mpr (.inl ⟨h, _, hm, rfl⟩)
  | finish h hm => exact execFinish_eq_next.mpr (.inl ⟨h, _, hm, rfl⟩)
  | readb h => exact execReadb_eq_next.mpr (.inl ⟨h, rfl⟩)
  | readh h => exact execReadh_eq_next.mpr (.inl ⟨h, rfl⟩)
  | status => exact execStatus_eq_next.mpr rfl
  | abort => exact execAbort_eq_next.mpr rfl

theorem exec_eq_next {i : Instr} {s t : State} : exec i s = .next t ↔ Effect i s t :=
  ⟨exec_effect, exec_of_effect⟩

/-- An accepted SETSEED is the one command that writes SEED or SEED_VALID. -/
theorem Effect.seed_cases {i : Instr} {s t : State} (h : Effect i s t) :
    (t.seed = s.seed ∧ t.seedValid = s.seedValid) ∨
      (s.phase ≠ .absorb ∧ t.seedValid = true ∧ i = .setseed t.seed) := by
  cases h with
  | setseed x hp => exact .inr ⟨hp, rfl, rfl⟩
  | write d hp hm =>
    obtain ⟨hseed, hvalid, -⟩ := absorbBytes_frame hm
    exact .inl ⟨hseed, hvalid⟩
  | finish hp hm =>
    obtain ⟨hseed, hvalid, -⟩ := padAndCompress_frame hm
    exact .inl ⟨hseed, hvalid⟩
  | refused | start | readb | readh | status | abort => exact .inl ⟨rfl, rfl⟩

/-- H is written by START and, in ABSORB, by WRITE and FINISH only. -/
theorem Effect.h_cases {i : Instr} {s t : State} (h : Effect i s t) :
    t.h = s.h ∨ i = .start ∨ (s.phase = .absorb ∧ ((∃ d, i = .write d) ∨ i = .finish)) := by
  cases h with
  | start => exact .inr (.inl rfl)
  | write d hp => exact .inr (.inr ⟨hp, .inl ⟨d, rfl⟩⟩)
  | finish hp => exact .inr (.inr ⟨hp, .inr rfl⟩)
  | refused | setseed | readb | readh | status | abort => exact .inl rfl

end Sys2Proof.Machine

open Sys2Proof Sys2Proof.Machine

/-- Settles O45: of a step's four kinds only a reset and a command write SEED, and of the commands only SETSEED
(`Effect.seed_cases`). -/
theorem seedChangesOnlyBySetseed : Obligations.SeedChangesOnlyBySetseed := by
  intro s t hstep hne
  rcases step_cases s with ⟨-, hs⟩ | ⟨o, rest, hq, -⟩ | ⟨f, rest, e, -, -, hs⟩ | ⟨f, rest, i, hq, hd, hs⟩
  · obtain rfl := next_eq_next.mp (hs.symm.trans hstep)
    simp at hne
  · exact .inl ⟨o, rest, hq⟩
  · obtain rfl := next_eq_next.mp (hs.symm.trans hstep)
    simp at hne
  · rcases (exec_effect (hs.symm.trans hstep)).seed_cases with ⟨hseed, hvalid⟩ | ⟨hp, hvalid, rfl⟩
    · exact absurd hne (by simp [hseed, hvalid])
    · obtain ⟨p, rfl, hlen, hx⟩ := frame_of_decode_setseed hd
      exact .inr ⟨p, rest, hq, hlen, hp, hvalid, hx⟩

/-- Settles O46: of a step's four kinds only a reset and a command write H, and of the commands only those of
`Effect.h_cases`. -/
theorem digestStateChangesOnlyByHashing : Obligations.DigestStateChangesOnlyByHashing := by
  intro s t hstep hne
  rcases step_cases s with ⟨-, hs⟩ | ⟨o, rest, hq, -⟩ | ⟨f, rest, e, -, -, hs⟩ | ⟨f, rest, i, hq, hd, hs⟩
  · obtain rfl := next_eq_next.mp (hs.symm.trans hstep)
    exact absurd rfl hne
  · exact .inl ⟨o, rest, hq⟩
  · obtain rfl := next_eq_next.mp (hs.symm.trans hstep)
    exact absurd rfl hne
  · have hframe := frame_eq_of_decode hd
    rcases (exec_effect (hs.symm.trans hstep)).h_cases with hh | rfl | ⟨hp, ⟨d, rfl⟩ | rfl⟩
    · exact absurd hh hne
    · exact .inr (.inl ⟨rest, frame_of_decode_start hd ▸ hq⟩)
    · exact .inr (.inr ⟨hp, f.payload, rest, .inl (hframe ▸ hq)⟩)
    · exact .inr (.inr ⟨hp, f.payload, rest, .inr (hframe ▸ hq)⟩)

end

section
/-! The invariant: reset has it, every update of the state a command makes keeps it, and under it every command answers. -/

namespace Sys2Proof.Machine

open Sys2Proof.Spec

theorem inv_reset : Inv State.reset where
  fill_le := Nat.zero_le _
  blk_wf := rfl
  err_le := Nat.zero_le _
  err_zero := by simp
  seeded := by simp
  fill_zero := fun _ => rfl
  tail_written := by simp

theorem errByte_le (e : ErrCode) : (errByte e).toNat ≤ 4 := by
  cases e <;> decide

theorem errByte_ne_zero (e : ErrCode) : errByte e ≠ 0 := by
  cases e <;> decide

/-- Error entry as R189 has it, and ABORT: one of the four codes in ERR, PHASE FAILED. -/
theorem Inv.failed {s : State} (hs : Inv s) (e : ErrCode) : Inv { s with err := errByte e, phase := .failed } where
  fill_le := hs.fill_le
  blk_wf := hs.blk_wf
  err_le := errByte_le e
  err_zero := iff_of_false (errByte_ne_zero e) fun h => h rfl
  seeded := by simp
  fill_zero := by simp
  tail_written := by simp

/-- The invariant reads neither port. -/
theorem Inv.ports {s : State} (hs : Inv s) (q : List Input) (o : List Response) : Inv { s with inq := q, out := o } :=
  ⟨hs.fill_le, hs.blk_wf, hs.err_le, hs.err_zero, hs.seeded, hs.fill_zero, hs.tail_written⟩

theorem Inv.respondOk {s : State} (hs : Inv s) (p : List Byte) : Inv (respondOk p s) := hs.ports _ _

theorem Inv.raiseError {s : State} (hs : Inv s) (e : ErrCode) : Inv (raiseError e s) := (hs.failed e).ports _ _

/-- Outside ABSORB a seed may be loaded. -/
theorem Inv.loadSeed {s : State} (hs : Inv s) (x : Seed) : Inv { s with seed := x, seedValid := true } :=
  ⟨hs.fill_le, hs.blk_wf, hs.err_le, hs.err_zero, fun _ => rfl, hs.fill_zero, hs.tail_written⟩

theorem Inv.openComputation {s : State} (hs : Inv s) (hv : s.seedValid = true) (h : Vector Word 6) :
    Inv (openComputation h s) where
  fill_le := Nat.zero_le _
  blk_wf := hs.blk_wf
  err_le := Nat.zero_le _
  err_zero := by simp
  seeded := fun _ => hv
  fill_zero := by simp
  tail_written := fun _ o ho => absurd ho (Nat.not_lt_zero o)

/-- In ABSORB the invariant says that the buffer is one a WRITE or FINISH can work on. -/
theorem Inv.bufferOk {s : State} (hs : Inv s) (hp : s.phase = .absorb) : BufferOk s :=
  ⟨hs.fill_le, hs.blk_wf, hs.tail_written hp⟩

theorem Inv.absorbBytes {wr : Wiring} {d : List Byte} {s m : State} (hs : Inv s) (hp : s.phase = .absorb)
    (hm : absorbBytes wr d s = .next m) : Inv m := by
  obtain ⟨-, hvalid, hphase, herr, -⟩ := absorbBytes_frame hm
  obtain ⟨m', hm', hok⟩ := absorbBytes_completes wr d (hs.bufferOk hp)
  obtain rfl := next_eq_next.mp (hm'.symm.trans hm)
  have hp' : m.phase = .absorb := hphase.trans hp
  exact {
    fill_le := hok.fill_le
    blk_wf := hok.blk_wf
    err_le := herr ▸ hs.err_le
    err_zero := by rw [herr, hphase]; exact hs.err_zero
    seeded := fun _ => hvalid.trans (hs.seeded (.inl hp))
    fill_zero := by simp [hp']
    tail_written := fun _ => hok.tail_written }

/-- FINISH closes the computation: the seed stays valid, ERR stays 0, and the padding kept the form of BLK. -/
theorem Inv.closeComputation {wr : Wiring} {mk : Marker127} {s m : State} (hs : Inv s) (hp : s.phase = .absorb)
    (hm : padAndCompress wr mk s = .next m) : Inv { m with fill := 0, phase := .done } := by
  obtain ⟨-, hvalid, -, herr, -⟩ := padAndCompress_frame hm
  have hwf : m.blk.wf = true := padAndCompress_wf hm hs.blk_wf
  have herr0 : m.err = 0 := herr.trans (hs.err_zero.mpr (by simp [hp]))
  exact {
    fill_le := Nat.zero_le _
    blk_wf := hwf
    err_le := herr ▸ hs.err_le
    err_zero := by simp [herr0]
    seeded := fun _ => hvalid.trans (hs.seeded (.inl hp))
    fill_zero := fun _ => rfl
    tail_written := by simp }

theorem Effect.keeps_inv {i : Instr} {s t : State} (h : Effect i s t) (hs : Inv s) : Inv t := by
  cases h with
  | refused => exact hs.raiseError _
  | setseed x => exact (hs.loadSeed x).respondOk _
  | start hv => exact (hs.openComputation hv _).respondOk _
  | write d hp hm => exact (hs.absorbBytes hp hm).respondOk _
  | finish hp hm => exact (hs.closeComputation hp hm).respondOk _
  | readb | readh | status => exact hs.respondOk _
  | abort => exact (hs.failed _).respondOk _

theorem step_keeps_inv {s t : State} (hs : Inv s) (h : step s = .next t) : Inv t := by
  rcases step_cases s with ⟨-, hstep⟩ | ⟨o, rest, -, hstep⟩ | ⟨f, rest, e, -, -, hstep⟩ | ⟨f, rest, i, -, -, hstep⟩
  · obtain rfl := next_eq_next.mp (hstep.symm.trans h)
    exact hs
  · obtain rfl := next_eq_next.mp (hstep.symm.trans h)
    exact inv_reset.ports _ _
  · obtain rfl := next_eq_next.mp (hstep.symm.trans h)
    exact (hs.ports rest _).raiseError e
  · exact (exec_effect (hstep.symm.trans h)).keeps_inv (hs.ports rest _)

/-- Under the invariant every command answers (R186): in its refused cases by error entry, and WRITE and FINISH in ABSORB
because the buffer has the bytes they compress. -/
theorem exec_completes (i : Instr) {s : State} (hs : Inv s) : ∃ t, exec i s = .next t := by
  by_cases herr : phaseError i s
  · exact ⟨_, exec_of_phaseError herr⟩
  cases i with
  | setseed x => exact ⟨_, exec_of_effect (.setseed x herr)⟩
  | start => exact ⟨_, exec_of_effect (.start (Bool.eq_true_of_not_eq_false herr))⟩
  | write d =>
    have hp : s.phase = .absorb := by_contra fun hp => herr (phase_ne_absorb_iff.mp hp)
    obtain ⟨m, hm, -⟩ := absorbBytes_completes Config.wiring d (hs.bufferOk hp)
    exact ⟨_, exec_of_effect (.write d hp hm)⟩
  | finish =>
    have hp : s.phase = .absorb := by_contra fun hp => herr (phase_ne_absorb_iff.mp hp)
    obtain ⟨m, hm⟩ := padAndCompress_completes Config.wiring (hs.bufferOk hp)
    exact ⟨_, exec_of_effect (.finish hp hm)⟩
  | readb => exact ⟨_, exec_of_effect (.readb (by_contra fun hp => herr (phase_ne_done_iff.mp hp)))⟩
  | readh => exact ⟨_, exec_of_effect (.readh (by_contra fun hp => herr (phase_ne_done_iff.mp hp)))⟩
  | status => exact ⟨_, exec_of_effect (.status s)⟩
  | abort => exact ⟨_, exec_of_effect (.abort s)⟩

theorem step_completes {s : State} (hs : Inv s) : ∃ t, step s = .next t := by
  rcases step_cases s with ⟨-, h⟩ | ⟨o, rest, -, h⟩ | ⟨f, rest, e, -, -, h⟩ | ⟨f, rest, i, -, -, h⟩
  · exact ⟨_, h⟩
  · exact ⟨_, h⟩
  · exact ⟨_, h⟩
  · exact h ▸ exec_completes i (hs.ports rest _)

end Sys2Proof.Machine

open Sys2Proof.Machine

/-- Settles O41, by `step_keeps_inv`: each of a step's four kinds keeps the invariant, a command by `Effect.keeps_inv`. -/
theorem stepKeepsInvariant : Obligations.StepKeepsInvariant := fun _ _ => step_keeps_inv

/-- Settles O42. -/
theorem resetHasInvariant : Obligations.ResetHasInvariant := inv_reset

/-- Settles O11: each register by its value in `State.reset`, and an empty BLK has no byte. -/
theorem resetStateControlRegisters : Obligations.ResetStateControlRegisters :=
  ⟨reset_phase, reset_err, reset_seedValid, reset_fill, Memory.read_nil, reset_inq, reset_out⟩

/-- Settles O55: the control registers agree, and neither ABSORB nor DONE has anything to relate yet. -/
theorem resetImplementsInitialView : Obligations.ResetImplementsInitialView where
  seed_valid := rfl
  seed_eq := by simp [HashView.reset]
  phase_eq := rfl
  err_eq := rfl
  fill_eq := rfl
  blk_wf := rfl
  absorb_fill := by simp [HashView.reset]
  absorb_h := by simp [HashView.reset]
  absorb_tail := by simp [HashView.reset]
  done_h := by simp [HashView.reset]

end

section
/-! The phase table (spec/10_state.md R37): what a frame answers, by the order of the checks. -/

namespace Sys2Proof.Machine

open Sys2Proof.Spec

/-- A command's cell of the phase table, START's need of a seed included (R37, R93). -/
def tableCell (op : Op) (s : State) : Option Phase :=
  if op = .start ∧ s.seedValid = false then none else cell op s.phase

theorem outcome_of_unknown {f : Frame} (h : opOf f.opcode = none) (s : State) :
    outcome f s = (.failed, 0x01, 0x01, 0) := by
  simp [outcome, h]

theorem outcome_of_wrongLength {f : Frame} {op : Op} (h : opOf f.opcode = some op) (hl : legalLength op f.length = false)
    (s : State) : outcome f s = (.failed, 0x02, 0x02, 0) := by
  simp only [Frame.length] at hl
  simp [outcome, h, hl]

theorem outcome_of_refused {f : Frame} {op : Op} {s : State} (h : opOf f.opcode = some op)
    (hl : legalLength op f.length = true) (hc : tableCell op s = none) : outcome f s = (.failed, 0x03, 0x03, 0) := by
  simp only [Frame.length] at hl
  simp only [tableCell] at hc
  simp only [outcome, h, hl, hc, if_true]

theorem outcome_of_accepted {f : Frame} {op : Op} {s : State} {p : Phase} (h : opOf f.opcode = some op)
    (hl : legalLength op f.length = true) (hc : tableCell op s = some p) :
    outcome f s = (p, 0x00, okErr op s.err, okPayload op) := by
  simp only [Frame.length] at hl
  simp only [tableCell] at hc
  simp only [outcome, h, hl, hc, if_true]

theorem toBytes_length (h : Vector Word 6) : (toBytes h).length = 24 := by
  simp [toBytes, le32, List.length_flatMap]

theorem toHex_length (order : HexOrder) (h : Vector Word 6) : (toHex order h).length = 48 := by
  cases order with
  | bytewise => simp [toHex, hex2, List.length_flatMap, toBytes_length]
  | numeric => simp [toHex, hexWord, List.length_flatMap]

/-- The cells "FAILED, E_PHASE" are the cases of R183. -/
theorem tableCell_of_phaseError {i : Instr} {s : State} (h : phaseError i s) : tableCell i.op s = none := by
  cases i with
  | setseed x =>
    have h : s.phase = .absorb := h
    simp [tableCell, Instr.op, cell, h]
  | start =>
    have h : s.seedValid = false := h
    simp [tableCell, Instr.op, h]
  | write | finish | readb | readh => rcases h with h | h | h <;> simp [tableCell, Instr.op, cell, h]
  | status => exact h.elim
  | abort => exact h.elim

/-- A command answers once and takes nothing more from the port: by error entry in a refused cell, else with the phase, the
ERR and the payload length of the table. -/
theorem Effect.follows_table {i : Instr} {s t : State} (h : Effect i s t) :
    t.inq = s.inq ∧ ∃ r, t.out = s.out ++ [r] ∧
      ((tableCell i.op s = none ∧ (t.phase, r.code, t.err, r.payload.length) = (.failed, 0x03, 0x03, 0)) ∨
        ∃ p, tableCell i.op s = some p ∧
          (t.phase, r.code, t.err, r.payload.length) = (p, 0x00, okErr i.op s.err, okPayload i.op)) := by
  cases h with
  | refused h => exact ⟨rfl, _, rfl, .inl ⟨tableCell_of_phaseError h, rfl⟩⟩
  | setseed x h =>
    refine ⟨rfl, _, rfl, .inr ⟨s.phase, ?_, rfl⟩⟩
    rcases phase_ne_absorb_iff.mp h with h | h | h <;> simp [tableCell, Instr.op, cell, h]
  | start h => exact ⟨rfl, _, rfl, .inr ⟨.absorb, by simp [tableCell, Instr.op, cell, h], rfl⟩⟩
  | write d h hm =>
    obtain ⟨-, -, hphase, herr, hinq, hout⟩ := absorbBytes_frame hm
    refine ⟨hinq, ⟨okCode, []⟩, by simp [hout], .inr ⟨.absorb, by simp [tableCell, Instr.op, cell, h], ?_⟩⟩
    simp [hphase, herr, h, okCode, okErr, okPayload, Instr.op]
  | finish h hm =>
    obtain ⟨-, -, -, herr, -, hinq, hout⟩ := padAndCompress_frame hm
    refine ⟨hinq, ⟨okCode, []⟩, by simp [hout], .inr ⟨.done, by simp [tableCell, Instr.op, cell, h], ?_⟩⟩
    simp [herr, okCode, okErr, okPayload, Instr.op]
  | readb h =>
    refine ⟨rfl, _, rfl, .inr ⟨.done, by simp [tableCell, Instr.op, cell, h], ?_⟩⟩
    simp [h, toBytes_length, okCode, okErr, okPayload, Instr.op]
  | readh h =>
    refine ⟨rfl, _, rfl, .inr ⟨.done, by simp [tableCell, Instr.op, cell, h], ?_⟩⟩
    simp [h, toHex_length, okCode, okErr, okPayload, Instr.op]
  | status => exact ⟨rfl, _, rfl, .inr ⟨s.phase, by simp [tableCell, Instr.op, cell], rfl⟩⟩
  | abort => exact ⟨rfl, _, rfl, .inr ⟨.failed, by simp [tableCell, Instr.op, cell], rfl⟩⟩

/-- The table for a command whose frame has passed the checks of opcode and length. -/
theorem exec_follows_outcome {f : Frame} {op : Op} {s : State} (hs : Inv s) (ho : opOf f.opcode = some op)
    (hl : legalLength op f.length = true) :
    ∃ t r, exec (op.withPayload f.payload) s = .next t ∧ t.inq = s.inq ∧ t.out = s.out ++ [r] ∧
      (t.phase, r.code, t.err, r.payload.length) = outcome f s := by
  obtain ⟨t, ht⟩ := exec_completes (op.withPayload f.payload) hs
  obtain ⟨hinq, r, hout, hcell⟩ := (exec_effect ht).follows_table
  rw [op_withPayload] at hcell
  rcases hcell with ⟨hc, hr⟩ | ⟨p, hc, hr⟩
  · exact ⟨t, r, ht, hinq, hout, hr.trans (outcome_of_refused ho hl hc).symm⟩
  · exact ⟨t, r, ht, hinq, hout, hr.trans (outcome_of_accepted ho hl hc).symm⟩

end Sys2Proof.Machine

open Sys2Proof Sys2Proof.Machine Sys2Proof.Spec

/-- Settles O12: the checks of opcode and length end in error entry, a command that passes them answers by
`exec_follows_outcome`. -/
theorem stepFollowsPhaseTable : Obligations.StepFollowsPhaseTable := by
  intro s f rest hs hq
  rw [step_of_frame hq]
  rcases ho : opOf f.opcode with _ | op
  · rw [stepFrame_error (decodeFrame_of_unknown ho), outcome_of_unknown ho]
    exact ⟨_, _, rfl, rfl, rfl, rfl⟩
  · have hd := decodeFrame_of_known ho
    cases hl : legalLength op f.length with
    | false =>
      rw [hl, if_neg Bool.false_ne_true] at hd
      rw [stepFrame_error hd, outcome_of_wrongLength ho hl]
      exact ⟨_, _, rfl, rfl, rfl, rfl⟩
    | true =>
      rw [hl, if_pos rfl] at hd
      rw [stepFrame_ok hd]
      exact exec_follows_outcome (hs.ports rest _) ho hl

end

section
/-! Several engines: a step of one of them is its own step at its own place in the list (spec/10_state.md R36). -/

namespace Sys2Proof.Machine

/-- A step of engine k in a system answers exactly where engine k alone does, and writes its place only. -/
theorem stepEngine_eq_next {k : Nat} {es es' : Engines} :
    stepEngine k es = .next es' ↔
      (es[k]? = none ∧ es' = es) ∨ ∃ s t, es[k]? = some s ∧ step s = .next t ∧ es' = es.set k t := by
  unfold stepEngine
  rcases es[k]? with _ | s
  · simp [eq_comm]
  · rcases hs : step s with t | r | r <;> simp [hs, eq_comm]

theorem stepEngine_of_step {k : Nat} {es : Engines} {s t : State} (hk : es[k]? = some s) (h : step s = .next t) :
    stepEngine k es = .next (es.set k t) :=
  stepEngine_eq_next.mpr (.inr ⟨s, t, hk, h, rfl⟩)

theorem getElem?_set_self_of_some {k : Nat} {es : Engines} {s : State} (hk : es[k]? = some s) (t : State) :
    (es.set k t)[k]? = some t := by
  obtain ⟨hlt, -⟩ := List.getElem?_eq_some_iff.mp hk
  exact List.getElem?_set_self hlt

theorem stepEngine_length {k : Nat} {es es' : Engines} (h : stepEngine k es = .next es') : es'.length = es.length := by
  obtain ⟨-, rfl⟩ | ⟨s, t, -, -, rfl⟩ := stepEngine_eq_next.mp h
  · rfl
  · exact List.length_set

theorem stepEngine_other {j k : Nat} {es es' : Engines} (h : stepEngine k es = .next es') (hjk : j ≠ k) :
    es'[j]? = es[j]? := by
  obtain ⟨-, rfl⟩ | ⟨s, t, -, -, rfl⟩ := stepEngine_eq_next.mp h
  · rfl
  · exact List.getElem?_set_ne hjk.symm

theorem stepEngine_own {k : Nat} {es es' : Engines} {s : State} (h : stepEngine k es = .next es') (hk : es[k]? = some s) :
    ∃ t, step s = .next t ∧ es'[k]? = some t := by
  obtain ⟨hnone, -⟩ | ⟨s', t, hk', ht, rfl⟩ := stepEngine_eq_next.mp h
  · rw [hk] at hnone
    cases hnone
  · obtain rfl := Option.some.inj (hk.symm.trans hk')
    exact ⟨t, ht, getElem?_set_self_of_some hk t⟩

theorem stepEngine_keeps_inv {k : Nat} {es es' : Engines} (h : stepEngine k es = .next es') (hes : ∀ e ∈ es, Inv e) :
    ∀ e ∈ es', Inv e := by
  obtain ⟨-, rfl⟩ | ⟨s, t, hk, ht, rfl⟩ := stepEngine_eq_next.mp h
  · exact hes
  · intro e he
    rcases List.mem_or_eq_of_mem_set he with he | rfl
    · exact hes e he
    · exact step_keeps_inv (hes s (List.mem_of_getElem? hk)) ht

/-- Steps of two engines commute: each reads and writes its own place only. -/
theorem stepEngine_comm {j k : Nat} {es e1 e2 : Engines} (hjk : j ≠ k) (h1 : stepEngine j es = .next e1)
    (h2 : stepEngine k e1 = .next e2) : ∃ e3, stepEngine k es = .next e3 ∧ stepEngine j e3 = .next e2 := by
  have hk := stepEngine_other h1 hjk.symm
  obtain ⟨hk1, rfl⟩ | ⟨s, t, hk1, ht, rfl⟩ := stepEngine_eq_next.mp h2
  · exact ⟨es, stepEngine_eq_next.mpr (.inl ⟨hk ▸ hk1, rfl⟩), h1⟩
  · refine ⟨es.set k t, stepEngine_of_step (hk ▸ hk1) ht, ?_⟩
    have hj : (es.set k t)[j]? = es[j]? := List.getElem?_set_ne hjk.symm
    obtain ⟨hj1, rfl⟩ | ⟨s', t', hj1, ht', rfl⟩ := stepEngine_eq_next.mp h1
    · exact stepEngine_eq_next.mpr (.inl ⟨hj.trans hj1, rfl⟩)
    · rw [List.set_comm _ _ hjk]
      exact stepEngine_of_step (hj.trans hj1) ht'

end Sys2Proof.Machine

open Sys2Proof.Machine

/-- Settles O56: its three parts are `stepEngine` on engines with the invariant, its frame, and `stepEngine_comm`. -/
theorem enginesAreIndependent : Obligations.EnginesAreIndependent := by
  refine ⟨fun k es s hes hk => ?_, fun k es es' h => ?_, fun j k es e1 e2 => stepEngine_comm⟩
  · obtain ⟨t, ht⟩ := step_completes (hes s (List.mem_of_getElem? hk))
    have h := stepEngine_of_step hk ht
    exact ⟨t, es.set k t, ht, h, getElem?_set_self_of_some hk t, stepEngine_length h, fun _ => stepEngine_other h,
      stepEngine_keeps_inv h hes⟩
  · exact ⟨stepEngine_length h, fun _ => stepEngine_other h, fun _ => stepEngine_own h⟩

end

section
/-! What FINISH leaves in BLK (spec/20_memory.md R55, spec/41_framer.md R103 to R106). -/

namespace Sys2Proof.Machine

theorem compress_blk {wr : Wiring} {s t : State} (h : compress wr s = .next t) : t.blk = s.blk := by
  obtain ⟨b, -, rfl⟩ := compress_eq_next.mp h
  rfl

/-- BLK after the padding of FINISH, by the three ranges of FILL: the compressions read it and leave it alone. -/
theorem padAndCompress_blk {wr : Wiring} {mk : Marker127} {s t : State} (h : padAndCompress wr mk s = .next t) :
    (s.fill.toNat = 128 ∧ t.blk = s.blk) ∨
      (s.fill.toNat < 123 ∧ t.blk = padSingle s.fill.toNat s.blk) ∨
      (123 ≤ s.fill.toNat ∧ s.fill.toNat < 128 ∧
        t.blk = padSpillSecond s.fill.toNat (padSpillFirst s.fill.toNat s.blk)) := by
  rcases padAndCompress_eq_next.mp h with ⟨hfull, hc⟩ | ⟨hsingle, hc⟩ | ⟨hlo, hhi, -, m, hm, hc⟩
  · exact .inl ⟨hfull, compress_blk hc⟩
  · exact .inr (.inl ⟨hsingle, compress_blk hc⟩)
  · have hblk : m.blk = padSpillFirst s.fill.toNat s.blk := compress_blk hm
    exact .inr (.inr ⟨hlo, hhi, hblk ▸ compress_blk hc⟩)

/-- The one padded block in the layout of R55: the byte at `size` is a zero of its own, before the marker. -/
theorem read_padSingle_layout {size : Nat} (h : size < 123) (m : Memory) (o : Nat) :
    (padSingle size m).read o =
      if o < size then m.read o
      else if o = size then some 0x00
      else if o = size + 1 then some 0x80
      else if o < 124 then some 0x00
      else if o = 124 then some (BitVec.ofNat 8 size)
      else if o < 128 then some 0x00
      else m.read o := by
  rw [read_padSingle h]
  by_cases hzero : o = size
  · subst hzero
    simp [show o ≠ 124 by omega, show o < 128 by omega]
  by_cases hmid : o < 124
  · simp [hzero, hmid, show o ≠ 124 by omega, show o < 128 by omega]
  · simp [hzero, hmid]

/-- Both spill blocks written one after the other: the second covers the whole buffer, and neither goes beyond it. -/
theorem read_padSpill {size : Nat} (hlo : 123 ≤ size) (hhi : size < 128) (m : Memory) (o : Nat) :
    (padSpillSecond size (padSpillFirst size m)).read o =
      if o = 124 then some (BitVec.ofNat 8 size) else if o < 128 then some 0x00 else m.read o := by
  rw [read_padSpillSecond hlo hhi]
  by_cases hin : o < 128
  · simp [hin]
  · simp [read_padSpillFirst hlo hhi, hin, show ¬ o < size by omega]

end Sys2Proof.Machine

open Sys2Proof Sys2Proof.Machine

/-- Settles O22: FINISH answers by `padAndCompress_completes`, BLK is as `padAndCompress_blk` says, and each padded buffer
reads offset by offset as `read_padSingle_layout` and `read_padSpill` say. -/
theorem finishLeavesPaddedBlock : Obligations.FinishLeavesPaddedBlock := by
  intro s hs hp
  obtain ⟨m, hm⟩ := padAndCompress_completes Config.wiring (hs.bufferOk hp)
  refine ⟨_, exec_of_effect (.finish hp hm), fun o => ?_⟩
  rw [respondOk_blk]
  rcases padAndCompress_blk hm with ⟨hfull, hblk⟩ | ⟨hsingle, hblk⟩ | ⟨hlo, hhi, hblk⟩
  · rw [if_pos hfull, hblk]
  · rw [if_neg (by omega), if_pos (by omega), hblk, read_padSingle_layout hsingle]
  · rw [if_neg (by omega), if_neg (by omega), hblk, read_padSpill hlo hhi]

end

section
/-! A computation sees of the engine it runs on H, FILL and the buffered bytes below FILL, nothing else that the engine held
before, and its commands leave the ports aside (spec/20_memory.md R59, spec/41_framer.md R109). -/

namespace Sys2Proof.Machine

theorem execAll_append (is js : List Instr) (s : State) :
    execAll (is ++ js) s = andThen (execAll is s) (execAll js) := by
  induction is generalizing s with
  | nil => rfl
  | cons i is ih => rw [List.cons_append, execAll, execAll, andThen_assoc]; exact congrArg _ (funext ih)

/-! ### Hashing does not read the answers -/

/-- The engine with other answers at its port. -/
def State.withOut (s : State) (out : List Response) : State := { s with out := out }

@[simp] theorem withOut_h (s : State) (out : List Response) : (s.withOut out).h = s.h := rfl

@[simp] theorem withOut_phase (s : State) (out : List Response) : (s.withOut out).phase = s.phase := rfl

@[simp] theorem withOut_out (s : State) (out : List Response) : (s.withOut out).out = out := rfl

@[simp] theorem withOut_withOut (s : State) (o out : List Response) : (s.withOut o).withOut out = s.withOut out := rfl

theorem respondOk_eq_withOut (p : List Byte) (s : State) : respondOk p s = s.withOut (s.out ++ [⟨okCode, p⟩]) := rfl

theorem compress_withOut {wr : Wiring} {s t : State} (h : compress wr s = .next t) (out : List Response) :
    compress wr (s.withOut out) = .next (t.withOut out) := by
  obtain ⟨b, hb, rfl⟩ := compress_eq_next.mp h
  exact compress_of_read wr hb

theorem absorbByte_withOut {wr : Wiring} {b : Byte} {s t : State} (h : absorbByte wr b s = .next t) (out : List Response) :
    absorbByte wr b (s.withOut out) = .next (t.withOut out) := by
  rcases absorbByte_eq_next.mp h with ⟨hroom, rfl⟩ | ⟨hfull, c, hc, rfl⟩
  · exact absorbByte_eq_next.mpr (.inl ⟨hroom, rfl⟩)
  · exact absorbByte_eq_next.mpr (.inr ⟨hfull, c, hc, rfl⟩)

theorem absorbBytes_withOut {wr : Wiring} {d : List Byte} {s t : State} (h : absorbBytes wr d s = .next t)
    (out : List Response) : absorbBytes wr d (s.withOut out) = .next (t.withOut out) := by
  induction d generalizing s with
  | nil => rw [next_eq_next.mp h, absorbBytes_nil]
  | cons b bs ih =>
    obtain ⟨m, hm, ht⟩ := andThen_eq_next.mp h
    exact andThen_eq_next.mpr ⟨_, absorbByte_withOut hm out, ih ht⟩

theorem padAndCompress_withOut {wr : Wiring} {mk : Marker127} {s t : State} (h : padAndCompress wr mk s = .next t)
    (out : List Response) : padAndCompress wr mk (s.withOut out) = .next (t.withOut out) := by
  rcases padAndCompress_eq_next.mp h with ⟨hfull, hc⟩ | ⟨hsingle, hc⟩ | ⟨hlo, hhi, hmk, m, hm, hc⟩
  · exact padAndCompress_eq_next.mpr (.inl ⟨hfull, compress_withOut hc out⟩)
  · exact padAndCompress_eq_next.mpr (.inr (.inl ⟨hsingle, compress_withOut hc out⟩))
  · exact padAndCompress_eq_next.mpr (.inr (.inr ⟨hlo, hhi, hmk, _, compress_withOut hm out, compress_withOut hc out⟩))

/-- A sequence of WRITEs absorbs the concatenation of its pieces and answers OK to each (R109). -/
theorem execAll_writes {c : List (List Byte)} {s m : State} (hp : s.phase = .absorb)
    (hm : absorbBytes Config.wiring c.flatten s = .next m) :
    execAll (c.map .write) s = .next (m.withOut (s.out ++ List.replicate c.length ⟨okCode, []⟩)) := by
  induction c generalizing s m with
  | nil =>
    obtain rfl := next_eq_next.mp hm
    simp [execAll, State.withOut]
  | cons d ds ih =>
    rw [List.flatten_cons, absorbBytes_append, andThen_eq_next] at hm
    obtain ⟨n, hn, hm⟩ := hm
    obtain ⟨-, -, hphase, -, -, hout⟩ := absorbBytes_frame hn
    have hwrite : exec (.write d) s = .next (respondOk [] n) := exec_of_effect (.write d hp hn)
    have hrest := ih (s := respondOk [] n) (hphase.trans hp) (absorbBytes_withOut hm _)
    rw [List.map_cons, execAll, hwrite, andThen_next, hrest]
    simp [hout, List.replicate_succ]

/-- `hash_to_bytes` is one absorption and one padding from the opened computation, and its last answer is the digest then
in H (spec/30_encoding.md R81). -/
theorem execAll_hashToBytes {c : List (List Byte)} {s m d : State} (hv : s.seedValid = true)
    (hm : absorbBytes Config.wiring c.flatten (openComputation (seedExpand s.seed) s) = .next m)
    (hd : padAndCompress Config.wiring .drop m = .next d) :
    ∃ t, execAll (hashToBytes c) s = .next t ∧ t.out.getLast? = some ⟨okCode, toBytes d.h⟩ := by
  obtain ⟨-, -, hphase, -⟩ := absorbBytes_frame hm
  have hstart : exec .start s = .next (respondOk [] (openComputation (seedExpand s.seed) s)) := exec_of_effect (.start hv)
  have hwrites := execAll_writes (s := respondOk [] (openComputation (seedExpand s.seed) s)) rfl (absorbBytes_withOut hm _)
  have hfinish := fun out => exec_of_effect (.finish (s := m.withOut out) hphase (padAndCompress_withOut hd out))
  rw [hashToBytes, execAll, hstart, andThen_next, execAll_append, hwrites, andThen_next, withOut_withOut, execAll, hfinish,
    andThen_next, execAll, exec_of_effect (.readb rfl)]
  exact ⟨_, rfl, List.getLast?_concat⟩

/-! ### Two engines with the same State and the same tail -/

/-- Two engines agree on H, on FILL and on the buffered bytes below FILL. -/
structure SameTail (s s' : State) : Prop where
  h_eq : s.h = s'.h
  fill_eq : s.fill = s'.fill
  tail_eq : ∀ o : Nat, o < s.fill.toNat → s.blk.read o = s'.blk.read o

/-- A compression reads of BLK the offsets 0..63 only (spec/42_scheduler.md R123). -/
theorem scheduledBytes_eq {m m' : Memory} {b b' : Fin 64 → Byte} (hb : ∀ o : Fin 64, m.read o.val = some (b o))
    (hb' : ∀ o : Fin 64, m'.read o.val = some (b' o)) (hread : ∀ o : Nat, o < 64 → m.read o = m'.read o) : b = b' :=
  funext fun o => Option.some.inj ((hb o).symm.trans ((hread o.val o.isLt).trans (hb' o)))

theorem compress_h_eq {wr : Wiring} {s s' t t' : State} (h : compress wr s = .next t) (h' : compress wr s' = .next t')
    (hh : s.h = s'.h) (hread : ∀ o : Nat, o < 64 → s.blk.read o = s'.blk.read o) : t.h = t'.h := by
  obtain ⟨b, hb, rfl⟩ := compress_eq_next.mp h
  obtain ⟨b', hb', rfl⟩ := compress_eq_next.mp h'
  rw [hh, scheduledBytes_eq hb hb' hread]

theorem absorbByte_sameTail {wr : Wiring} {b : Byte} {s s' t t' : State} (hs : SameTail s s')
    (h : absorbByte wr b s = .next t) (h' : absorbByte wr b s' = .next t') : SameTail t t' := by
  obtain ⟨hh, hfill, htail⟩ := hs
  rcases absorbByte_eq_next.mp h with ⟨hroom, rfl⟩ | ⟨hfull, c, hc, rfl⟩
  · rcases absorbByte_eq_next.mp h' with ⟨-, rfl⟩ | ⟨hfull', -⟩
    · refine ⟨hh, congrArg (· + 1) hfill, fun o ho => ?_⟩
      have hle : o ≤ s.fill.toNat := by
        have hadd : (s.fill + 1).toNat ≤ s.fill.toNat + 1 := Nat.mod_le _ _
        exact Nat.le_of_lt_succ (Nat.lt_of_lt_of_le ho hadd)
      simp only [Memory.read_write, ← hfill]
      split
      · rfl
      · exact htail o (by omega)
    · simp [hfill, hfull'] at hroom
  · rcases absorbByte_eq_next.mp h' with ⟨hroom', -⟩ | ⟨-, c', hc', rfl⟩
    · simp [← hfill, hfull] at hroom'
    · obtain rfl : c = c' := scheduledBytes_eq hc hc' fun o ho => htail o (by simp [hfull]; omega)
      refine ⟨congrArg (compressH wr · c) hh, rfl, fun o ho => ?_⟩
      obtain rfl : o = 0 := Nat.lt_one_iff.mp ho
      simp

theorem absorbBytes_sameTail {wr : Wiring} {d : List Byte} {s s' t t' : State} (hs : SameTail s s')
    (h : absorbBytes wr d s = .next t) (h' : absorbBytes wr d s' = .next t') : SameTail t t' := by
  induction d generalizing s s' with
  | nil => exact next_eq_next.mp h ▸ next_eq_next.mp h' ▸ hs
  | cons b bs ih =>
    obtain ⟨m, hm, ht⟩ := andThen_eq_next.mp h
    obtain ⟨m', hm', ht'⟩ := andThen_eq_next.mp h'
    exact ih (absorbByte_sameTail hs hm hm') ht ht'

/-- What FINISH folds into H is fixed by the tail: the padding overwrites every byte of BLK that a compression reads and that
is not below FILL. -/
theorem padAndCompress_h_eq {wr : Wiring} {mk : Marker127} {s s' t t' : State} (hs : SameTail s s')
    (h : padAndCompress wr mk s = .next t) (h' : padAndCompress wr mk s' = .next t') : t.h = t'.h := by
  obtain ⟨hh, hfill, htail⟩ := hs
  rw [padAndCompress_eq_next] at h h'
  rw [← hfill] at h'
  rcases h with ⟨hfull, hc⟩ | ⟨hsingle, hc⟩ | ⟨hlo, hhi, -, m, hm, hc⟩
  · obtain ⟨-, hc'⟩ | ⟨hsingle', -⟩ | ⟨-, hhi', -⟩ := h'
    · exact compress_h_eq hc hc' hh fun o ho => htail o (by omega)
    · omega
    · omega
  · obtain ⟨hfull', -⟩ | ⟨-, hc'⟩ | ⟨hlo', -⟩ := h'
    · omega
    · refine compress_h_eq hc hc' hh fun o ho => ?_
      simp only [read_padSingle hsingle]
      split
      · next hlt => exact htail o hlt
      · simp [show o < 128 by omega]
    · omega
  · obtain ⟨hfull', -⟩ | ⟨hsingle', -⟩ | ⟨-, -, -, m', hm', hc'⟩ := h'
    · omega
    · omega
    · have hfirst : m.h = m'.h := compress_h_eq hm hm' hh fun o ho => by
        simp only [read_padSpillFirst hlo hhi, if_pos (show o < s.fill.toNat by omega)]
        exact htail o (by omega)
      refine compress_h_eq hc hc' hfirst fun o ho => ?_
      simp [read_padSpillSecond hlo hhi, show o < 128 by omega]

/-- A computation just opened under the same seed has the same State and no tail yet. -/
theorem openComputation_sameTail (h : Vector Word 6) (s s' : State) :
    SameTail (openComputation h s) (openComputation h s') :=
  ⟨rfl, rfl, fun o ho => absurd ho (Nat.not_lt_zero o)⟩

/-- Under the invariant a computation opened with a seed absorbs any bytes and is padded. -/
theorem openedComputation_completes (d : List Byte) {s : State} (hs : Inv s) (hv : s.seedValid = true) :
    ∃ m t, absorbBytes Config.wiring d (openComputation (seedExpand s.seed) s) = .next m ∧
      padAndCompress Config.wiring .drop m = .next t := by
  obtain ⟨m, hm, hok⟩ := absorbBytes_completes Config.wiring d ((hs.openComputation hv (seedExpand s.seed)).bufferOk rfl)
  obtain ⟨t, ht⟩ := padAndCompress_completes Config.wiring hok
  exact ⟨m, t, hm, ht⟩

end Sys2Proof.Machine

open Sys2Proof.Machine

/-- Settles O51: both computations open alike (`openComputation_sameTail`), every byte keeps State and tail alike
(`absorbBytes_sameTail`), so the padding ends in the same H (`padAndCompress_h_eq`), which READB answers. -/
theorem sameSeedSameBytesSameDigest : Obligations.SameSeedSameBytesSameDigest := by
  intro s s' c c' hs hs' hv hv' hseed hbytes
  obtain ⟨m, d, hm, hd⟩ := openedComputation_completes c.flatten hs hv
  obtain ⟨m', d', hm', hd'⟩ := openedComputation_completes c'.flatten hs' hv'
  have hdigest : d.h = d'.h := by
    rw [← hseed, ← hbytes] at hm'
    exact padAndCompress_h_eq (absorbBytes_sameTail (openComputation_sameTail _ s s') hm hm') hd hd'
  obtain ⟨t, ht, hout⟩ := execAll_hashToBytes hv hm hd
  obtain ⟨t', ht', hout'⟩ := execAll_hashToBytes hv' hm' hd'
  exact ⟨t, t', ⟨okCode, toBytes d.h⟩, ht, ht', hout, hdigest ▸ hout', rfl, toBytes_length d.h⟩

end

section
/-! The frames the decoder accepts are the frames of the well-formed commands (spec/30_encoding.md R71 to R73, R78), and
every other byte sequence is one of two errors (R79). -/

namespace Sys2Proof

open Sys2Proof.Spec

theorem decode_bytes_eq_ok {f : Frame} {i : Instr} : decode f.bytes = .ok i ↔ decodeFrame f = .ok i := by
  rw [Frame.bytes, decode]
  rcases decodeFrame f with e | j
  · cases e <;> simp
  · simp

theorem decode_of_unknown {op : Byte} (p : List Byte) (h : opOf op = none) : decode (op :: p) = .error .illegal := by
  rw [decode, decodeFrame_of_unknown h]

theorem decode_of_wrongLength {op : Byte} {p : List Byte} {o : Op} (h : opOf op = some o)
    (hl : legalLength o (p.length + 1) = false) : decode (op :: p) = .error .format := by
  have hd : decodeFrame ⟨op, p⟩ = .error .eFormat := by
    rw [decodeFrame_of_known h, Frame.length, hl, if_neg Bool.false_ne_true]
  rw [decode, hd]

theorem decode_of_legal {op : Byte} {p : List Byte} {o : Op} (h : opOf op = some o)
    (hl : legalLength o (p.length + 1) = true) : decode (op :: p) = .ok (o.withPayload p) :=
  decode_bytes_eq_ok (f := ⟨op, p⟩).mpr ((decodeFrame_of_known h).trans (if_pos hl))

/-- A seed written as its eight payload bytes is read back (R72). -/
theorem seedOfPayload_leBytes (x : Seed) : seedOfPayload (leBytes 8 x.toNat) = x := by
  apply BitVec.eq_of_toNat_eq
  rw [seedOfPayload, leNat_leBytes, BitVec.toNat_ofNat]
  have := x.isLt
  omega

/-- Eight payload bytes are the bytes of the seed they hold (R72). -/
theorem leBytes_seedOfPayload {p : List Byte} (hp : p.length = 8) : leBytes 8 (seedOfPayload p).toNat = p := by
  have hlt : leNat p < 2 ^ 64 := by simpa [hp] using leNat_lt p
  rw [seedOfPayload, BitVec.toNat_ofNat, Nat.mod_eq_of_lt hlt, ← hp, leBytes_leNat]

theorem withPayload_payload (i : Instr) : i.op.withPayload i.payload = i := by
  cases i with
  | setseed x => exact congrArg Instr.setseed (seedOfPayload_leBytes x)
  | start | write | finish | readb | readh | status | abort => rfl

/-- A payload of the length its command needs is the payload of the command read from it. -/
theorem payload_withPayload {o : Op} {p : List Byte} (h : legalLength o (p.length + 1) = true) :
    (o.withPayload p).payload = p := by
  cases o with
  | setseed => exact leBytes_seedOfPayload (Nat.succ.inj (of_decide_eq_true h))
  | write => rfl
  | start | finish | readb | readh | status | abort =>
    exact (List.eq_nil_of_length_eq_zero (Nat.succ.inj (of_decide_eq_true h))).symm

/-- A command is well formed exactly where its frame has a length the opcode map allows. -/
theorem wf_iff_legalLength (i : Instr) : i.wf = true ↔ legalLength i.op (encodeFrame i).length = true := by
  rw [legalLength_iff]
  cases i with
  | write d =>
    simp only [Instr.wf, Instr.op, rowOf, Frame.length, encodeFrame, Instr.payload, Config.burstMax, Bool.and_eq_true,
      decide_eq_true_eq]
    omega
  | setseed x => simp [Instr.wf, Instr.op, rowOf, Frame.length, encodeFrame, Instr.payload]
  | start | finish | readb | readh | status | abort => exact iff_of_true rfl ⟨le_rfl, le_rfl⟩

/-- The decoder accepts exactly the frames of the well-formed commands. -/
theorem decodeFrame_eq_ok_iff_encodeFrame {f : Frame} {i : Instr} :
    decodeFrame f = .ok i ↔ i.wf = true ∧ encodeFrame i = f := by
  rw [decodeFrame_eq_ok]
  constructor
  · rintro ⟨ho, hl, hi⟩
    have hp : i.payload = f.payload := by
      rw [hi]
      exact payload_withPayload hl
    have hf : encodeFrame i = f := by rw [encodeFrame, hp, ← ho]
    exact ⟨(wf_iff_legalLength i).mpr (hf ▸ hl), hf⟩
  · rintro ⟨hwf, rfl⟩
    exact ⟨rfl, (wf_iff_legalLength i).mp hwf, (withPayload_payload i).symm⟩

end Sys2Proof

open Sys2Proof Sys2Proof.Spec

/-- Settles O1: the frame of a well-formed command is accepted as that command (`decodeFrame_eq_ok_iff_encodeFrame`). -/
theorem decodeEncodeRoundTrip : Obligations.DecodeEncodeRoundTrip :=
  fun _ hwf => decode_bytes_eq_ok.mpr (decodeFrame_eq_ok_iff_encodeFrame.mpr ⟨hwf, rfl⟩)

/-- Settles O2: a sequence that decodes has a first byte, so it is a frame, and an accepted frame is that of its command
(`decodeFrame_eq_ok_iff_encodeFrame`). -/
theorem encodeDecodeRoundTrip : Obligations.EncodeDecodeRoundTrip := by
  intro bs i h
  cases bs with
  | nil => cases h
  | cons op p =>
    obtain ⟨hwf, hf⟩ := decodeFrame_eq_ok_iff_encodeFrame.mp (decode_bytes_eq_ok (f := ⟨op, p⟩).mp h)
    exact ⟨hwf, congrArg Frame.bytes hf⟩

/-- Settles O3: whether byte 0 is an opcode and whether the length is legal leave three cases, each with one result. -/
theorem decoderIsThreeWay : Obligations.DecoderIsThreeWay := by
  intro op p
  rcases ho : opOf op with _ | o
  · simp [decode_of_unknown p ho]
  · cases hl : legalLength o (p.length + 1) with
    | false => simp [decode_of_wrongLength ho hl, hl]
    | true => simp [decode_of_legal ho hl, hl]

/-- Settles O4: the decoder run on each of the thirteen sequences. -/
theorem writtenFramesDecode : Obligations.WrittenFramesDecode := by
  unfold Obligations.WrittenFramesDecode
  decide

/-- Settles O5: `BitVec.ofInt` keeps the remainder modulo 2^64, which is no negative number. -/
theorem seedOfIntegerIsTwosComplement : Obligations.SeedOfIntegerIsTwosComplement := by
  intro v _ _
  rw [seedOfInt, BitVec.toNat_ofInt]
  exact Int.toNat_of_nonneg (Int.emod_nonneg v (by decide))

end

section
/-! The response to a frame (spec/30_encoding.md R74): which of the checks decides it (spec/60_exceptions.md R188). -/

namespace Sys2Proof.Machine

open Sys2Proof.Spec

/-- The responses to a frame, each with the outcome of the checks that leads to it (R74, R188). -/
inductive Answer (f : Frame) (s : State) : Response → Prop
  /-- No opcode (R181). -/
  | illegal (h : decode f.bytes = .error .illegal) : Answer f s ⟨0x01, []⟩
  /-- A wrong length (R182). -/
  | format (h : decode f.bytes = .error .format) : Answer f s ⟨0x02, []⟩
  /-- A command the phase, or START's need of a seed, refuses (R183). -/
  | refused {i : Instr} (h : decode f.bytes = .ok i) (hp : phaseError i s) : Answer f s ⟨0x03, []⟩
  /-- A command that is run to its end. -/
  | ok {i : Instr} (h : decode f.bytes = .ok i) (hp : ¬phaseError i s) {p : List Byte}
      (hlen : p.length = okPayload i.op) : Answer f s ⟨0x00, p⟩

/-- The phase table refuses a command in the cases of R183 and in no other. -/
theorem tableCell_eq_none_iff {i : Instr} {s : State} : tableCell i.op s = none ↔ phaseError i s := by
  refine ⟨fun h => ?_, tableCell_of_phaseError⟩
  cases i with
  | start => simpa [tableCell, Instr.op, cell, phaseError] using h
  | setseed | write | finish | readb | readh | status | abort =>
    revert h
    cases hp : s.phase <;> simp [tableCell, Instr.op, cell, phaseError, hp]

/-- A frame that is no command fails the check of the opcode or that of the length. -/
theorem answer_of_decodeFrame_error {f : Frame} {e : ErrCode} (h : decodeFrame f = .error e) (s : State) :
    Answer f s ⟨errByte e, []⟩ := by
  rcases ho : opOf f.opcode with _ | op
  · cases (decodeFrame_of_unknown ho).symm.trans h
    exact .illegal (decode_of_unknown f.payload ho)
  · rw [decodeFrame_of_known ho] at h
    split at h
    · cases h
    · next hl =>
      cases h
      exact .format (decode_of_wrongLength ho (Bool.eq_false_of_not_eq_true hl))

/-- A command that ends emits one response, OK or E_PHASE. -/
theorem Effect.answer {f : Frame} {i : Instr} {s t : State} (hd : decode f.bytes = .ok i) (h : Effect i s t) :
    ∃ r, t.out = s.out ++ [r] ∧ Answer f s r := by
  obtain ⟨-, ⟨code, p⟩, hout, ⟨hc, hr⟩ | ⟨q, hc, hr⟩⟩ := h.follows_table
  · obtain ⟨-, rfl, -, hlen⟩ : _ ∧ code = 0x03 ∧ _ ∧ p.length = 0 := by simpa using hr
    obtain rfl := List.eq_nil_of_length_eq_zero hlen
    exact ⟨_, hout, .refused hd (tableCell_eq_none_iff.mp hc)⟩
  · obtain ⟨-, rfl, -, hlen⟩ : _ ∧ code = 0x00 ∧ _ ∧ p.length = okPayload i.op := by simpa using hr
    have hp : ¬phaseError i s := fun hp => by simp [tableCell_of_phaseError hp] at hc
    exact ⟨_, hout, .ok hd hp hlen⟩

theorem stepFrame_answer {f : Frame} {s t : State} (h : stepFrame f s = .next t) :
    ∃ r, t.out = s.out ++ [r] ∧ Answer f s r := by
  rcases hd : decodeFrame f with e | i
  · rw [stepFrame_error hd] at h
    obtain rfl := next_eq_next.mp h
    exact ⟨_, raiseError_out e s, answer_of_decodeFrame_error hd s⟩
  · rw [stepFrame_ok hd] at h
    exact (exec_effect h).answer (decode_bytes_eq_ok.mpr hd)

/-- The phase and SEED_VALID decide E_PHASE (R183), not what waits at the port. -/
@[simp] theorem phaseError_with_inq (i : Instr) (s : State) (q : List Input) :
    phaseError i { s with inq := q } ↔ phaseError i s := by
  cases i <;> rfl

end Sys2Proof.Machine

open Sys2Proof Sys2Proof.Machine Sys2Proof.Spec

/-- Settles O13: the step emits an `Answer`, and the codes 0x01 and 0x02 stand for the two errors of the decoder, which
`decoderIsThreeWay` says when it gives. -/
theorem responseShape : Obligations.ResponseShape := by
  intro s t f rest hq hstep
  rw [step_of_frame hq] at hstep
  obtain ⟨r, hout, hr⟩ := stepFrame_answer hstep
  refine ⟨r, hout, ?_⟩
  obtain ⟨hillegal, hformat, -⟩ := decoderIsThreeWay f.opcode f.payload
  rw [Frame.length, ← hillegal, ← hformat, ← Frame.bytes]
  cases hr with
  | illegal h => simp [h]
  | format h => simp [h]
  | refused h hp => simpa [h] using hp
  | @ok i h hp p hlen =>
    obtain ⟨ho, -, -⟩ := decodeFrame_eq_ok.mp (decode_bytes_eq_ok.mp h)
    have hop : opOf f.opcode = some i.op := ho ▸ opOf_opcode i
    simpa [h, hop, hlen] using hp

end

section
/-! The Seed Expander (spec/40_seed.md R90 to R93), and what the commands that store nothing in BLK leave unchanged. -/

namespace Sys2Proof.Machine

open Sys2Proof.Spec

/-- `s1` is the seed's low half as a number (R90). -/
theorem toNat_seedLow (x : Seed) : (seedLow x).toNat = x.toNat % 2 ^ 32 := by
  rw [seedLow, BitVec.extractLsb'_toNat, Nat.shiftRight_zero]

/-- `s2` is the seed's high half as a number (R90). -/
theorem toNat_seedHigh (x : Seed) : (seedHigh x).toNat = x.toNat / 2 ^ 32 := by
  have hlt : x.toNat / 2 ^ 32 < 2 ^ 32 := Nat.div_lt_of_lt_mul x.isLt
  rw [seedHigh, BitVec.extractLsb'_toNat, Nat.shiftRight_eq_div_pow, Nat.mod_eq_of_lt hlt]

/-- A command other than WRITE and FINISH keeps BLK, the working registers and the queue. -/
theorem Effect.store_cases {i : Instr} {s t : State} (h : Effect i s t) :
    (t.blk = s.blk ∧ t.a = s.a ∧ t.w = s.w ∧ t.inq = s.inq) ∨ (∃ d, i = .write d) ∨ i = .finish := by
  cases h with
  | write d => exact .inr (.inl ⟨d, rfl⟩)
  | finish => exact .inr (.inr rfl)
  | refused | setseed | start | readb | readh | status | abort => exact .inl ⟨rfl, rfl, rfl, rfl⟩

/-- FILL is written by START, WRITE and FINISH only. -/
theorem Effect.fill_cases {i : Instr} {s t : State} (h : Effect i s t) :
    t.fill = s.fill ∨ i = .start ∨ (∃ d, i = .write d) ∨ i = .finish := by
  cases h with
  | start => exact .inr (.inl rfl)
  | write d => exact .inr (.inr (.inl ⟨d, rfl⟩))
  | finish => exact .inr (.inr (.inr rfl))
  | refused | setseed | readb | readh | status | abort => exact .inl rfl

/-- PHASE and ERR are written by error entry, START, ABORT and FINISH only; the bytes of a WRITE keep them. -/
theorem Effect.control_cases {i : Instr} {s t : State} (h : Effect i s t) :
    (t.phase = s.phase ∧ t.err = s.err) ∨ phaseError i s ∨ i = .start ∨ i = .abort ∨ i = .finish := by
  cases h with
  | refused hp => exact .inr (.inl hp)
  | start => exact .inr (.inr (.inl rfl))
  | abort => exact .inr (.inr (.inr (.inl rfl)))
  | finish => exact .inr (.inr (.inr (.inr rfl)))
  | write d hp hm =>
    obtain ⟨-, -, hphase, herr, -⟩ := absorbBytes_frame hm
    exact .inl ⟨hphase, herr⟩
  | setseed | readb | readh | status => exact .inl ⟨rfl, rfl⟩

end Sys2Proof.Machine

open Sys2Proof Sys2Proof.Machine

/-- Settles O29: the registers a command may write are those of `Effect.store_cases`, `Effect.h_cases`, `Effect.fill_cases`,
`Effect.seed_cases` and `Effect.control_cases`. -/
theorem commandsWithoutStoreFrame : Obligations.CommandsWithoutStoreFrame := by
  intro i s t hwrite hfinish h
  have heff : Effect i s t := exec_effect h
  have hnoWrite : ¬∃ d, i = .write d := fun ⟨d, hd⟩ => hwrite d hd
  obtain ⟨hblk, ha, hw, hinq⟩ := heff.store_cases.resolve_right (not_or.mpr ⟨hnoWrite, hfinish⟩)
  refine ⟨fun o => by rw [hblk], ha, hw, hinq, fun hstart => ⟨?_, ?_⟩, fun hset => ?_, fun hstart habort hok => ?_⟩
  · simpa [hstart, hfinish, hwrite] using heff.h_cases
  · simpa [hstart, hfinish, hwrite] using heff.fill_cases
  · simpa [hset] using heff.seed_cases
  · simpa [hstart, habort, hok, hfinish] using heff.control_cases

/-- Settles O16: the accepted case of SETSEED, `Effect.setseed`. -/
theorem setseedLoadsSeed : Obligations.SetseedLoadsSeed :=
  fun seed _ hp => exec_of_effect (.setseed seed hp)

/-- Settles O17: the two words are the halves `seedLow` and `seedHigh` (`toNat_seedLow`, `toNat_seedHigh`), over which
`seedExpand` has the same six lines. -/
theorem seedExpandLines : Obligations.SeedExpandLines := by
  intro seed s1 s2 h0 h1 h2 h3 h4 h5 hlow hhigh hh0 hh1 hh2 hh3 hh4 hh5
  obtain rfl : s1 = seedLow seed := BitVec.eq_of_toNat_eq (hlow.trans (toNat_seedLow seed).symm)
  obtain rfl : s2 = seedHigh seed := BitVec.eq_of_toNat_eq (hhigh.trans (toNat_seedHigh seed).symm)
  subst hh0 hh1 hh2 hh3 hh4 hh5
  rfl

/-- Settles O18: the accepted case of START, `Effect.start`. -/
theorem startOpensComputation : Obligations.StartOpensComputation :=
  fun _ hv => exec_of_effect (.start hv)

end

section
/-! WRITE in ABSORB (spec/41_framer.md R101): where its bytes go, how FILL moves, what is left as it was. -/

namespace Sys2Proof.Machine

/-- A message byte goes to offset `FILL mod 128`: FILL = 128 is a full buffer, and the byte then opens the next one. -/
theorem absorbByte_store {wr : Wiring} {b : Byte} {s t : State} (h : absorbByte wr b s = .next t) :
    t.blk = s.blk.write (s.fill.toNat % 128) b ∧ t.fill.toNat = s.fill.toNat % 128 + 1 := by
  rcases absorbByte_eq_next.mp h with ⟨hroom, rfl⟩ | ⟨hfull, c, -, rfl⟩
  · have hpos : s.fill.toNat % 128 = s.fill.toNat := Nat.mod_eq_of_lt hroom
    refine ⟨by rw [hpos], ?_⟩
    simp [BitVec.toNat_add]
    omega
  · simp [hfull]

/-- FILL is in 1..128 after a message byte, whatever it was before. -/
theorem absorbBytes_fill {wr : Wiring} {d : List Byte} {s t : State} (h : absorbBytes wr d s = .next t)
    (hd : 1 ≤ d.length) : t.fill.toNat = (s.fill.toNat + d.length - 1) % 128 + 1 := by
  induction d generalizing s with
  | nil => exact absurd hd (by decide)
  | cons b bs ih =>
    obtain ⟨m, hm, ht⟩ := andThen_eq_next.mp h
    obtain ⟨-, hfill⟩ := absorbByte_store hm
    rw [List.length_cons]
    rcases Nat.eq_zero_or_pos bs.length with hnil | hpos
    · obtain rfl := List.eq_nil_of_length_eq_zero hnil
      obtain rfl := next_eq_next.mp ht
      simpa using hfill
    · rw [ih ht hpos, hfill]
      omega

/-- Byte `i` goes to offset `(FILL + i) mod 128`; an offset no byte goes to keeps its contents. -/
theorem absorbBytes_read_other {wr : Wiring} {d : List Byte} {s t : State} (h : absorbBytes wr d s = .next t) {o : Nat}
    (ho : ∀ i, i < d.length → o ≠ (s.fill.toNat + i) % 128) : t.blk.read o = s.blk.read o := by
  induction d generalizing s with
  | nil => rw [next_eq_next.mp h]
  | cons b bs ih =>
    obtain ⟨m, hm, ht⟩ := andThen_eq_next.mp h
    obtain ⟨hblk, hfill⟩ := absorbByte_store hm
    have hfirst : o ≠ s.fill.toNat % 128 := ho 0 (Nat.succ_pos _)
    have hrest : ∀ i, i < bs.length → o ≠ (m.fill.toNat + i) % 128 := fun i hi => by
      have := ho (i + 1) (Nat.succ_lt_succ hi)
      omega
    rw [ih ht hrest, hblk, Memory.read_write_other _ _ hfirst]

/-- Of the bytes of a WRITE the last 128 stand in the buffer: the bytes after byte `i` are too few to come round to its
offset. -/
theorem absorbBytes_read {wr : Wiring} {d : List Byte} {s t : State} (h : absorbBytes wr d s = .next t) {i : Nat}
    (hi : i < d.length) (hlast : d.length ≤ i + 128) : t.blk.read ((s.fill.toNat + i) % 128) = d[i]? := by
  induction d generalizing s i with
  | nil => exact absurd hi (Nat.not_lt_zero i)
  | cons b bs ih =>
    obtain ⟨m, hm, ht⟩ := andThen_eq_next.mp h
    obtain ⟨hblk, hfill⟩ := absorbByte_store hm
    rw [List.length_cons] at hi hlast
    cases i with
    | zero =>
      rw [absorbBytes_read_other ht fun j hj => by omega, hblk]
      simp
    | succ i =>
      have hpos : (s.fill.toNat + (i + 1)) % 128 = (m.fill.toNat + i) % 128 := by omega
      rw [hpos, List.getElem?_cons_succ]
      exact ih ht (by omega) (by omega)

/-- Bytes that fit in the buffer find no full one, so nothing is compressed. -/
theorem absorbBytes_data {wr : Wiring} {d : List Byte} {s t : State} (h : absorbBytes wr d s = .next t)
    (hfit : s.fill.toNat + d.length ≤ 128) : t.h = s.h ∧ t.a = s.a ∧ t.w = s.w := by
  induction d generalizing s with
  | nil =>
    rw [next_eq_next.mp h]
    exact ⟨rfl, rfl, rfl⟩
  | cons b bs ih =>
    obtain ⟨m, hm, ht⟩ := andThen_eq_next.mp h
    obtain ⟨-, hfill⟩ := absorbByte_store hm
    rw [List.length_cons] at hfit
    obtain ⟨hh, ha, hw⟩ := ih ht (by omega)
    rcases absorbByte_eq_next.mp hm with ⟨-, rfl⟩ | ⟨hfull, -⟩
    · exact ⟨hh, ha, hw⟩
    · have hfull' : s.fill.toNat = 128 := by simp [hfull]
      omega

/-- The byte that finds the buffer full, as the compression and the store it is. -/
theorem absorbByte_of_full (wr : Wiring) (b : Byte) {s : State} (h : s.fill = 128) :
    absorbByte wr b s = andThen (compress wr s) fun t => .next { t with blk := t.blk.write 0 b, fill := 1 } := by
  rw [absorbByte, flushFull, if_pos h, andThen_assoc]
  rfl

theorem exec_write_of_absorb (d : List Byte) {s : State} (h : s.phase = .absorb) :
    exec (.write d) s = andThen (absorbBytes Config.wiring d s) fun t => .next (respondOk [] t) :=
  if_pos h

end Sys2Proof.Machine

open Sys2Proof Sys2Proof.Machine

/-- Settles O19: the bytes are absorbed (`absorbBytes_completes`), and the clauses are `absorbBytes_fill`, `absorbBytes_read`,
`absorbBytes_read_other`, `absorbBytes_data` and `absorbBytes_frame`. -/
theorem writeAbsorbsItsBytes : Obligations.WriteAbsorbsItsBytes := by
  intro s data hs hp hlen
  obtain ⟨m, hm, -⟩ := absorbBytes_completes Config.wiring data (hs.bufferOk hp)
  obtain ⟨hseed, hvalid, hphase, herr, hinq, hout⟩ := absorbBytes_frame hm
  refine ⟨respondOk [] m, exec_of_effect (.write data hp hm), ?_⟩
  simp only [respondOk_fill, respondOk_blk, respondOk_h, respondOk_a, respondOk_w]
  exact ⟨absorbBytes_fill hm hlen, fun i => absorbBytes_read hm, fun o => absorbBytes_read_other hm, absorbBytes_data hm,
    hphase.trans hp, herr, hseed, hvalid, hinq, congrArg (· ++ [_]) hout⟩

/-- Settles O20: an accepted WRITE absorbs its bytes, a refused one is an error entry. -/
theorem writeFrame : Obligations.WriteFrame := by
  intro s t data h
  cases exec_effect h with
  | refused herr =>
    have hp : s.phase ≠ .absorb := phase_ne_absorb_iff.mpr herr
    exact ⟨rfl, rfl, rfl, fun habs => absurd habs hp, fun _ => ⟨rfl, rfl, rfl, rfl, fun _ => rfl⟩⟩
  | write _ hp hm =>
    obtain ⟨hseed, hvalid, hphase, herr, hinq, -⟩ := absorbBytes_frame hm
    exact ⟨hseed, hvalid, hinq, fun _ => ⟨hphase, herr, fun o => absorbBytes_read_other hm⟩, fun hne => absurd hp hne⟩

/-- Settles O59: the buffer after the byte is the one canonical list with the contents given (`Memory.eq_of_read_eq`), and
the byte's two cases are `absorbByte_of_full` and the store with room. -/
theorem writeByteFlushesFullBuffer : Obligations.WriteByteFlushesFullBuffer := by
  intro s b m hs hp hwf hbyte hother
  obtain rfl : m = s.blk.write (s.fill.toNat % 128) b := by
    refine Memory.eq_of_read_eq hwf (Memory.wf_write b (Nat.mod_lt _ (by decide)) hs.blk_wf) fun o => ?_
    by_cases ho : o = s.fill.toNat % 128
    · rw [ho, hbyte, Memory.read_write_same]
    · rw [hother o ho, Memory.read_write_other _ _ ho]
  rw [exec_write_of_absorb [b] hp, absorbBytes_cons, andThen_assoc]
  constructor
  · intro hfull
    obtain ⟨n, hn⟩ := compress_completes Config.wiring (s := s) fun o ho => hs.tail_written hp o (by simp [hfull]; omega)
    rw [absorbByte_of_full _ b hfull, hn, andThen_next, andThen_next, andThen_next, compress_blk hn, hfull]
    rfl
  · intro hne
    have hroom : s.fill.toNat < 128 :=
      Nat.lt_of_le_of_ne hs.fill_le fun h => hne (BitVec.eq_of_toNat_eq (y := 128) h)
    have hbyte : absorbByte Config.wiring b s = _ := absorbByte_eq_next.mpr (.inl ⟨hroom, rfl⟩)
    rw [hbyte, andThen_next, Nat.mod_eq_of_lt hroom]
    rfl

/-- Settles O49: either sequence absorbs the concatenation (`execAll_writes`), and the answers are no part of the state
compared. -/
theorem writeChunksDoNotMatter : Obligations.WriteChunksDoNotMatter := by
  intro s c c' hs hp hbytes
  obtain ⟨m, hm, -⟩ := absorbBytes_completes Config.wiring c.flatten (hs.bufferOk hp)
  exact ⟨_, _, execAll_writes hp hm, execAll_writes hp (hbytes ▸ hm), rfl⟩

end

section
/-! FINISH (spec/41_framer.md R102 to R107): the buffers it compresses, what it leaves as it was, and MARKER_127 (R105). -/

namespace Sys2Proof.Machine

open Sys2Proof.Spec

theorem exec_finish_of_absorb {s : State} (h : s.phase = .absorb) :
    exec .finish s = andThen (padAndCompress Config.wiring .drop s) closed :=
  if_pos h

/-! ### The three ranges of FILL -/

theorem padAndCompress_of_full (wr : Wiring) (mk : Marker127) {s : State} (h : s.fill.toNat = 128) :
    padAndCompress wr mk s = compress wr s :=
  if_pos h

theorem padAndCompress_of_single (wr : Wiring) (mk : Marker127) {s : State} (h : s.fill.toNat < 123) :
    padAndCompress wr mk s = compress wr { s with blk := padSingle s.fill.toNat s.blk } :=
  (if_neg (by simp only [Config.blockSize]; omega)).trans (if_pos h)

/-- In the range of the spill MARKER_127 is asked for, and only under REFUSE is 127 bytes a case of its own. -/
theorem padAndCompress_of_spill (wr : Wiring) (mk : Marker127) {s : State} (hlo : 123 ≤ s.fill.toNat)
    (hhi : s.fill.toNat < 128) :
    padAndCompress wr mk s =
      if s.fill.toNat = 127 ∧ mk = .refuse then .refused .marker127
      else andThen (compress wr { s with blk := padSpillFirst s.fill.toNat s.blk }) fun t =>
        compress wr { t with blk := padSpillSecond s.fill.toNat t.blk } :=
  (if_neg (Nat.ne_of_lt hhi)).trans ((if_neg (Nat.not_lt.mpr hlo)).trans (if_pos hhi))

/-- A FILL other than 127 does not ask for MARKER_127. -/
theorem padAndCompress_refuse_eq_drop (wr : Wiring) {s : State} (h : s.fill.toNat ≠ 127) :
    padAndCompress wr .refuse s = padAndCompress wr .drop s := by
  simp [padAndCompress, h]

/-! ### The padded buffers are the only canonical ones with their contents -/

theorem eq_padSingle {size : Nat} {m k : Memory} (hsize : size < 123) (hm : m.wf = true) (hk : k.wf = true)
    (h : ∀ o, o < 128 → m.read o =
      if o < size then k.read o
      else if o = size + 1 then some 0x80
      else if o = 124 then some (BitVec.ofNat 8 size)
      else some 0x00) :
    m = padSingle size k := by
  have hpad : (padSingle size k).wf = true := wf_padSingle hsize hk
  refine Memory.eq_of_read_eq hm hpad fun o => ?_
  rcases Nat.lt_or_ge o 128 with hin | hout
  · rw [h o hin, read_padSingle hsize, if_pos hin]
  · rw [Memory.read_outside hm hout, Memory.read_outside hpad hout]

theorem eq_padSpillFirst {size : Nat} {m k : Memory} (hlo : 123 ≤ size) (hhi : size < 128) (hm : m.wf = true)
    (hk : k.wf = true)
    (h : ∀ o, o < 128 → m.read o =
      if o < size then k.read o else if o = size + 1 then some 0x80 else some 0x00) :
    m = padSpillFirst size k := by
  have hpad : (padSpillFirst size k).wf = true := wf_padSpillFirst hhi hk
  refine Memory.eq_of_read_eq hm hpad fun o => ?_
  rcases Nat.lt_or_ge o 128 with hin | hout
  · simp only [h o hin, read_padSpillFirst hlo hhi, hin, and_true, if_true]
  · rw [Memory.read_outside hm hout, Memory.read_outside hpad hout]

theorem eq_padSpillSecond {size : Nat} {m k : Memory} (hlo : 123 ≤ size) (hhi : size < 128) (hm : m.wf = true)
    (hk : k.wf = true)
    (h : ∀ o, o < 128 → m.read o = if o = 124 then some (BitVec.ofNat 8 size) else some 0x00) :
    m = padSpillSecond size k := by
  have hpad : (padSpillSecond size k).wf = true := wf_padSpillSecond size hk
  refine Memory.eq_of_read_eq hm hpad fun o => ?_
  rcases Nat.lt_or_ge o 128 with hin | hout
  · rw [h o hin, read_padSpillSecond hlo hhi, if_pos hin]
  · rw [Memory.read_outside hm hout, Memory.read_outside hpad hout]

/-- Of BLK the padding changes nothing for a full buffer, nothing below FILL for one padded block, and nothing outside the
buffer ever. -/
theorem padAndCompress_read_other {wr : Wiring} {mk : Marker127} {s t : State} (h : padAndCompress wr mk s = .next t)
    {o : Nat} (ho : s.fill.toNat = 128 ∨ (s.fill.toNat < 123 ∧ o < s.fill.toNat) ∨ 128 ≤ o) :
    t.blk.read o = s.blk.read o := by
  rcases padAndCompress_blk h with ⟨-, hblk⟩ | ⟨hsingle, hblk⟩ | ⟨hlo, hhi, hblk⟩
  · rw [hblk]
  · rw [hblk, read_padSingle hsingle]
    by_cases hbelow : o < s.fill.toNat
    · rw [if_pos hbelow]
    · have hout : 128 ≤ o := by omega
      rw [if_neg hbelow, if_neg (by omega), if_neg (by omega), if_neg (by omega)]
  · have hout : 128 ≤ o := by omega
    rw [hblk, read_padSpill hlo hhi, if_neg (by omega), if_neg (by omega)]

/-! ### The second spill block -/

/-- With no word but zero in the schedule the recurrence gives zero. -/
theorem schedStep_zero (i : Fin 16) : schedStep (Vector.replicate 32 0) i = Vector.replicate 32 0 := by
  revert i
  decide +kernel

/-- A block whose scheduled bytes are all zero has 32 zero words. -/
theorem schedule_zero : schedule (fun _ => 0) = Vector.replicate 32 0 := by
  have hraw : rawWords (fun _ => 0) ++ Vector.replicate 16 (0 : Word) = Vector.replicate 32 0 := by decide +kernel
  rw [schedule, hraw]
  exact List.foldlRecOn (motive := (· = Vector.replicate 32 0)) _ _ rfl fun w hw i _ => hw ▸ schedStep_zero i

end Sys2Proof.Machine

open Sys2Proof Sys2Proof.Machine

/-- Settles O58: the first clause is `read_padSpillFirst`; FINISH compresses by the range of FILL, and the buffers given are
the padded ones (`eq_padSingle`, `eq_padSpillFirst`, `eq_padSpillSecond`). -/
theorem finishCompressesPaddedBuffers : Obligations.FinishCompressesPaddedBuffers := by
  refine ⟨fun size m o hlo hhi => ?_, fun s hs hp => ?_⟩
  · rw [read_padSpillFirst hlo (Nat.lt_succ_of_le hhi)]
    have hmark : (o = size + 1 ∧ size + 1 < 128) ↔ (o = size + 1 ∧ o < 128) := by omega
    simp only [hmark]
  · have hlen : BitVec.ofNat 8 s.fill.toNat = s.fill := by simp
    rw [exec_finish_of_absorb hp]
    refine ⟨fun hfull => ?_, fun m hle hm hread => ?_, fun m m' hlo hle hm hm' hread hread' => ?_⟩
    · rw [padAndCompress_of_full _ _ hfull]
    · have hsize : s.fill.toNat < 123 := Nat.lt_succ_of_le hle
      rw [padAndCompress_of_single _ _ hsize, eq_padSingle hsize hm hs.blk_wf (by rwa [hlen])]
    · have hhi : s.fill.toNat < 128 := Nat.lt_succ_of_le hle
      rw [padAndCompress_of_spill _ _ hlo hhi, if_neg (by simp), andThen_assoc,
        ← eq_padSpillFirst hlo hhi hm hs.blk_wf hread]
      rcases compress_cases Config.wiring { s with blk := m } with hc | ⟨t, hc⟩
      · rw [hc, andThen_fault, andThen_fault]
      · have ht : t.blk.wf = true := (compress_blk hc).symm ▸ hm
        rw [hc, andThen_next, andThen_next, ← eq_padSpillSecond hlo hhi hm' ht (by rwa [hlen])]

/-- Settles O23: an accepted FINISH pads (`padAndCompress_frame`, `padAndCompress_read_other`), a refused one is an error
entry. -/
theorem finishFrame : Obligations.FinishFrame := by
  intro s t h
  cases exec_effect h with
  | refused herr =>
    have hp : s.phase ≠ .absorb := phase_ne_absorb_iff.mpr herr
    exact ⟨rfl, rfl, rfl, fun habs => absurd habs hp, fun _ => ⟨rfl, rfl, rfl, rfl, fun _ => rfl⟩⟩
  | finish hp hm =>
    obtain ⟨hseed, hvalid, -, herr, -, hinq, -⟩ := padAndCompress_frame hm
    exact ⟨hseed, hvalid, hinq, fun _ => ⟨herr, fun o => padAndCompress_read_other hm⟩, fun hne => absurd hp hne⟩

/-- Settles O32: below offset 124 the second spill block is zero (`read_padSpillSecond`), and zero bytes schedule as zero
words (`schedule_zero`). -/
theorem spillSecondSchedulesZero : Obligations.SpillSecondSchedulesZero := by
  intro size m hlo hhi
  refine ⟨fun _ => 0, Memory.scheduled_eq_some.mpr fun o => ?_, schedule_zero⟩
  rw [read_padSpillSecond hlo (Nat.lt_succ_of_le hhi), if_neg (by omega), if_pos (by omega)]

/-- Settles O24: 127 bytes are in the range of the spill, where REFUSE stops; another FILL does not ask for MARKER_127. -/
theorem marker127Alternatives : Obligations.Marker127Alternatives := by
  refine ⟨rfl, fun wr s => ⟨fun hp hfill => ?_, fun hne => ?_⟩⟩
  · have hsize : s.fill.toNat = 127 := by simp [hfill]
    rw [finishWith, if_pos hp, padAndCompress_of_spill wr .refuse (by omega) (by omega), if_pos ⟨hsize, rfl⟩, andThen_refused]
  · have hsize : s.fill.toNat ≠ 127 := fun h => hne (BitVec.eq_of_toNat_eq (y := 127) h)
    rw [finishWith, finishWith, padAndCompress_refuse_eq_drop wr hsize]

end

section
/-! `Blocks(m)` (spec/41_framer.md R108): how many blocks, and how a message splits into the full blocks that the lazy flush has
compressed (R101) and the blocks of the buffered tail. -/

namespace Sys2Proof.Machine

theorem blocks_nil : blocks [] = [singleBlock []] := rfl

/-! ### The blocks of a tail of 1 to 128 bytes, by its length (R102 to R104) -/

theorem blocks_of_full {t : List Byte} (h : t.length = 128) : blocks t = [fullBlock t 0] := by
  simp [blocks, h]

theorem blocks_of_single {t : List Byte} (h : t.length < 123) : blocks t = [singleBlock t] := by
  rcases Nat.eq_zero_or_pos t.length with hnil | hpos
  · rw [List.eq_nil_of_length_eq_zero hnil, blocks_nil]
  · have hdiv : t.length / 128 = 0 := Nat.div_eq_of_lt (by omega)
    have hmod : t.length % 128 = t.length := Nat.mod_eq_of_lt (by omega)
    simp [blocks, hdiv, hmod, h, Nat.ne_of_gt hpos]

theorem blocks_of_spill {t : List Byte} (hlo : 123 ≤ t.length) (hhi : t.length < 128) :
    blocks t = [spillBlock1 t, spillBlock2 t.length] := by
  have hdiv : t.length / 128 = 0 := Nat.div_eq_of_lt hhi
  have hmod : t.length % 128 = t.length := Nat.mod_eq_of_lt hhi
  simp [blocks, hdiv, hmod, show t.length ≠ 0 by omega, show ¬ t.length < 123 by omega]

/-! ### FILL under the lazy flush -/

theorem tailLength_of_pos {n : Nat} (h : 0 < n) : tailLength n = (n - 1) % 128 + 1 := if_neg (Nat.ne_of_gt h)

theorem tailLength_le (n : Nat) : tailLength n ≤ 128 := by
  rcases Nat.eq_zero_or_pos n with rfl | hpos
  · exact Nat.zero_le _
  · rw [tailLength_of_pos hpos]
    omega

/-- Under the lazy flush the blocks compressed so far are those before the last byte's. -/
theorem flushed_add_tailLength (n : Nat) : 128 * ((n - 1) / 128) + tailLength n = n := by
  rcases Nat.eq_zero_or_pos n with rfl | hpos
  · rfl
  · rw [tailLength_of_pos hpos]
    omega

/-! ### Full blocks and tail -/

/-- The bytes of a message that are in the buffer under the lazy flush (R101). -/
def pending (m : List Byte) : List Byte := m.drop (m.length - tailLength m.length)

/-- The blocks of a message that have been compressed when the rest is in the buffer (R101). -/
def flushed (m : List Byte) : List Block := (List.range ((m.length - 1) / 128)).map (fullBlock m)

theorem absorbedState_eq (wr : Wiring) (seed : Seed) (m : List Byte) :
    absorbedState wr seed m = (flushed m).foldl (compressBlock wr) (seedExpand seed) := by
  have hcount : (m.length - tailLength m.length) / 128 = (m.length - 1) / 128 := by
    have := flushed_add_tailLength m.length
    omega
  rw [absorbedState, hcount, flushed]

theorem pending_eq (m : List Byte) : pending m = m.drop (128 * ((m.length - 1) / 128)) := by
  have hcut : m.length - tailLength m.length = 128 * ((m.length - 1) / 128) := by
    have := flushed_add_tailLength m.length
    omega
  rw [pending, hcut]

theorem pending_length (m : List Byte) : (pending m).length = tailLength m.length := by
  have := flushed_add_tailLength m.length
  rw [pending, List.length_drop]
  omega

theorem getElem?_pending (m : List Byte) (o : Nat) : (pending m)[o]? = m[m.length - tailLength m.length + o]? :=
  List.getElem?_drop

/-- A full block of what is left of a message after `k` blocks. -/
theorem fullBlock_drop (m : List Byte) (k i : Nat) : fullBlock (m.drop (128 * k)) i = fullBlock m (k + i) := by
  refine Vector.ext fun o ho => ?_
  simp [fullBlock, List.getD_eq_getElem?_getD, List.getElem?_drop]
  congr 2
  omega

/-- Blocks before the last byte's may be cut off in front. -/
theorem blocks_eq_append {m : List Byte} {k : Nat} (h : 128 * k < m.length) :
    blocks m = (List.range k).map (fullBlock m) ++ blocks (m.drop (128 * k)) := by
  have hlen : (m.drop (128 * k)).length = m.length - 128 * k := List.length_drop
  have hmod : (m.length - 128 * k) % 128 = m.length % 128 := by omega
  have hdiv : m.length / 128 = k + (m.length - 128 * k) / 128 := by omega
  have htail : 128 * k + 128 * ((m.length - 128 * k) / 128) = 128 * (m.length / 128) := by omega
  have hfull : (List.range (m.length / 128)).map (fullBlock m) = (List.range k).map (fullBlock m) ++
      (List.range ((m.length - 128 * k) / 128)).map (fullBlock (m.drop (128 * k))) := by
    rw [hdiv, List.range_add, List.map_append, List.map_map]
    exact congrArg _ (List.map_congr_left fun i _ => (fullBlock_drop m k i).symm)
  simp only [blocks, hlen, hmod, List.drop_drop, htail, hfull, if_neg (show m.length ≠ 0 by omega),
    if_neg (show m.length - 128 * k ≠ 0 by omega)]
  split
  · rfl
  · split <;> rw [List.append_assoc]

/-- The blocks of a message are the compressed ones and those of the tail. -/
theorem blocks_eq_flushed_append (m : List Byte) : blocks m = flushed m ++ blocks (pending m) := by
  rcases Nat.eq_zero_or_pos m.length with hnil | hpos
  · obtain rfl := List.eq_nil_of_length_eq_zero hnil
    rfl
  · rw [pending_eq]
    exact blocks_eq_append (by omega)

/-- The digest folds the blocks of the tail into the State the lazy flush has reached. -/
theorem digestState_eq (wr : Wiring) (seed : Seed) (m : List Byte) :
    digestState wr seed m = (blocks (pending m)).foldl (compressBlock wr) (absorbedState wr seed m) := by
  rw [digestState, blocks_eq_flushed_append, List.foldl_append, absorbedState_eq]

/-! ### One more byte -/

theorem fullBlock_append {m : List Byte} (d : List Byte) {i : Nat} (h : 128 * (i + 1) ≤ m.length) :
    fullBlock (m ++ d) i = fullBlock m i := by
  refine Vector.ext fun o ho => ?_
  simp [fullBlock, List.getD_eq_getElem?_getD, List.getElem?_append_left (show 128 * i + o < m.length by omega)]

/-- A byte that finds room is one more of the tail. -/
theorem flushed_concat_of_room {m : List Byte} (b : Byte) (h : tailLength m.length < 128) :
    flushed (m ++ [b]) = flushed m ∧ pending (m ++ [b]) = pending m ++ [b] := by
  have hsum := flushed_add_tailLength m.length
  have hcount : ((m ++ [b]).length - 1) / 128 = (m.length - 1) / 128 := by
    rw [List.length_append, List.length_singleton]
    omega
  rw [flushed, flushed, pending_eq, pending_eq, hcount]
  refine ⟨List.map_congr_left fun i hi => fullBlock_append [b] ?_, List.drop_append_of_le_length (by omega)⟩
  have := List.mem_range.mp hi
  omega

/-- A byte that finds the buffer full makes the tail a compressed block and is the new tail. -/
theorem flushed_concat_of_full {m : List Byte} (b : Byte) (h : tailLength m.length = 128) :
    flushed (m ++ [b]) = flushed m ++ [fullBlock (pending m) 0] ∧ pending (m ++ [b]) = [b] := by
  have hsum := flushed_add_tailLength m.length
  have hcount : ((m ++ [b]).length - 1) / 128 = (m.length - 1) / 128 + 1 := by
    rw [List.length_append, List.length_singleton]
    omega
  have hcut : 128 * ((m.length - 1) / 128 + 1) = m.length := by omega
  rw [flushed, flushed, pending_eq, pending_eq, hcount, List.range_succ, List.map_append, List.map_singleton, fullBlock_drop,
    hcut, List.drop_left]
  refine ⟨congrArg₂ (· ++ [·]) (List.map_congr_left fun i hi => fullBlock_append [b] ?_) (fullBlock_append [b] hcut.le), rfl⟩
  have := List.mem_range.mp hi
  omega

/-! ### A compression reads 64 bytes of a block -/

/-- One block folded into the State, from the list of its bytes 0..63 (spec/42_scheduler.md R123). -/
def compressLower (wr : Wiring) (h : Vector Word 6) (lower : List Byte) : Vector Word 6 :=
  compressH wr h fun o : Fin 64 => lower.getD o.val 0

theorem compressBlock_eq_compressLower (wr : Wiring) (h : Vector Word 6) (b : Block) :
    compressBlock wr h b = compressLower wr h (b.toList.take 64) := by
  refine congrArg (compressH wr h) (funext fun o => ?_)
  simp [List.getD_eq_getElem?_getD, o.isLt]

end Sys2Proof.Machine

open Sys2Proof Sys2Proof.Machine

/-- Settles O52: by the branches of `blocks`, each with its count. -/
theorem blockCount : Obligations.BlockCount := by
  intro m
  rw [blocks]
  split
  · next hnil => simp [hnil]
  · dsimp only
    split
    · rw [if_neg (by omega), List.length_map, List.length_range]
      omega
    · split
      · rw [if_neg (by omega), List.length_append, List.length_map, List.length_range, List.length_singleton]
        omega
      · rw [if_pos (by omega), List.length_append, List.length_map, List.length_range, List.length_cons, List.length_singleton]
        omega

/-- Settles O53: the digest folds the bytes 0..63 of each block (`compressBlock_eq_compressLower`), and those are the same
lists. -/
theorem digestDependsOnLowerHalves : Obligations.DigestDependsOnLowerHalves := by
  intro wr seed m m' hlower
  have hfold : ∀ m : List Byte, digestState wr seed m =
      ((blocks m).map fun b => b.toList.take 64).foldl (compressLower wr) (seedExpand seed) := fun m => by
    rw [List.foldl_map, digestState]
    exact congrArg (fun f => (blocks m).foldl f (seedExpand seed))
      (funext fun h => funext fun b => compressBlock_eq_compressLower wr h b)
  rw [hfold, hfold, hlower]

end

section
/-! The engine and the message (spec/41_framer.md R108): what BLK and H hold while a computation is open, and what FINISH makes
of them. -/

namespace Sys2Proof.Machine

/-! ### Buffers and blocks -/

/-- BLK holds the bytes of `t` from offset 0 on. -/
def Memory.HoldsTail (m : Memory) (t : List Byte) : Prop := ∀ o : Nat, o < t.length → m.read o = t[o]?

/-- BLK holds the block `b`. -/
def Memory.HoldsBlock (m : Memory) (b : Block) : Prop := ∀ (o : Nat) (ho : o < 128), m.read o = some b[o]

/-- A byte of the tail, as the blocks name it. -/
theorem Memory.HoldsTail.read_eq {m : Memory} {t : List Byte} (h : m.HoldsTail t) {o : Nat} (ho : o < t.length) :
    m.read o = some (t.getD o 0) := by
  rw [h o ho, List.getElem?_eq_getElem ho, List.getD_eq_getElem _ _ ho]

theorem Memory.HoldsTail.holdsBlock_full {m : Memory} {t : List Byte} (h : m.HoldsTail t) (hfull : t.length = 128) :
    m.HoldsBlock (fullBlock t 0) := fun o ho => by
  rw [h.read_eq (hfull ▸ ho)]
  simp [fullBlock]

theorem Memory.HoldsTail.holdsBlock_single {m : Memory} {t : List Byte} (h : m.HoldsTail t) (hlen : t.length < 123) :
    (padSingle t.length m).HoldsBlock (singleBlock t) := fun o ho => by
  rw [read_padSingle hlen, singleBlock, Vector.getElem_ofFn]
  by_cases hbelow : o < t.length
  · simp only [hbelow, if_true, h.read_eq hbelow]
  · simp only [hbelow, if_false, ho, if_true, apply_ite some]

theorem Memory.HoldsTail.holdsBlock_spillFirst {m : Memory} {t : List Byte} (h : m.HoldsTail t) (hlo : 123 ≤ t.length)
    (hhi : t.length < 128) : (padSpillFirst t.length m).HoldsBlock (spillBlock1 t) := fun o ho => by
  rw [read_padSpillFirst hlo hhi, spillBlock1, Vector.getElem_ofFn]
  by_cases hbelow : o < t.length
  · simp only [hbelow, if_true, h.read_eq hbelow]
  · simp only [hbelow, if_false, ho, and_true, if_true, apply_ite some]

theorem holdsBlock_spillSecond {size : Nat} (hlo : 123 ≤ size) (hhi : size < 128) (m : Memory) :
    (padSpillSecond size m).HoldsBlock (spillBlock2 size) := fun o ho => by
  rw [read_padSpillSecond hlo hhi, spillBlock2, Vector.getElem_ofFn]
  simp only [ho, if_true, apply_ite some]

/-- The compression of a buffer that holds a block folds that block into H. -/
theorem compress_h_of_holdsBlock {wr : Wiring} {s t : State} {b : Block} (h : compress wr s = .next t)
    (hb : s.blk.HoldsBlock b) : t.h = compressBlock wr s.h b := by
  obtain ⟨c, hc, rfl⟩ := compress_eq_next.mp h
  exact congrArg (compressH wr s.h) (funext fun o => Option.some.inj ((hc o).symm.trans (hb o.val (by omega))))

/-- FINISH folds the blocks of the buffered tail into H (R102 to R107). -/
theorem padAndCompress_h {wr : Wiring} {mk : Marker127} {s t : State} {tail : List Byte}
    (h : padAndCompress wr mk s = .next t) (hlen : tail.length = s.fill.toNat) (htail : s.blk.HoldsTail tail) :
    t.h = (blocks tail).foldl (compressBlock wr) s.h := by
  rw [padAndCompress_eq_next, ← hlen] at h
  rcases h with ⟨hfull, hc⟩ | ⟨hsingle, hc⟩ | ⟨hlo, hhi, -, m, hm, hc⟩
  · rw [blocks_of_full hfull]
    exact compress_h_of_holdsBlock hc (htail.holdsBlock_full hfull)
  · have hblock := compress_h_of_holdsBlock hc (htail.holdsBlock_single hsingle)
    rwa [blocks_of_single hsingle]
  · have hfirst := compress_h_of_holdsBlock hm (htail.holdsBlock_spillFirst hlo hhi)
    have hsecond := compress_h_of_holdsBlock hc (holdsBlock_spillSecond hlo hhi m.blk)
    rwa [blocks_of_spill hlo hhi, List.foldl_cons, ← hfirst]

/-! ### An open computation -/

/-- The engine has absorbed the message `msg` under `seed`: the tail is in BLK, the blocks before it are in H (R101). -/
structure Absorbed (wr : Wiring) (seed : Seed) (msg : List Byte) (s : State) : Prop where
  fill_eq : s.fill.toNat = tailLength msg.length
  h_eq : s.h = absorbedState wr seed msg
  tail_eq : s.blk.HoldsTail (pending msg)

/-- START: nothing absorbed, H from the Seed Expander (R93). -/
theorem openComputation_absorbed (wr : Wiring) (seed : Seed) (s : State) :
    Absorbed wr seed [] (openComputation (seedExpand seed) s) :=
  ⟨rfl, rfl, fun o ho => absurd ho (Nat.not_lt_zero o)⟩

theorem Absorbed.bufferOk {wr : Wiring} {seed : Seed} {msg : List Byte} {s : State} (hs : Absorbed wr seed msg s)
    (hwf : s.blk.wf = true) : BufferOk s where
  fill_le := hs.fill_eq ▸ tailLength_le _
  blk_wf := hwf
  tail_written := fun o ho => by
    have hlen : o < (pending msg).length := by rwa [pending_length, ← hs.fill_eq]
    rw [hs.tail_eq.read_eq hlen, Option.isSome_some]

/-- A message byte is one more byte of the message: it finds room and joins the tail, or makes the full buffer one more
compressed block. -/
theorem Absorbed.absorbByte {wr : Wiring} {seed : Seed} {msg : List Byte} {b : Byte} {s t : State}
    (hs : Absorbed wr seed msg s) (h : absorbByte wr b s = .next t) : Absorbed wr seed (msg ++ [b]) t := by
  obtain ⟨hfill, hh, htail⟩ := hs
  have hlen : (pending msg).length = s.fill.toNat := (pending_length msg).trans hfill.symm
  rcases absorbByte_eq_next.mp h with ⟨hroom, rfl⟩ | ⟨hfull, c, hc, rfl⟩
  · obtain ⟨hflushed, hpending⟩ := flushed_concat_of_room b (hfill ▸ hroom)
    obtain ⟨-, hfill'⟩ := absorbByte_store h
    refine ⟨?_, ?_, fun o ho => ?_⟩
    · rw [hfill', ← pending_length, hpending, List.length_append, hlen, Nat.mod_eq_of_lt hroom]
      rfl
    · rw [absorbedState_eq, hflushed, ← absorbedState_eq]
      exact hh
    · rw [hpending, List.length_append, List.length_singleton] at ho
      rw [hpending, Memory.read_write, ← hlen]
      split
      · next hnew => rw [hnew, List.getElem?_concat_length]
      · next hold =>
        have hbelow : o < (pending msg).length := by omega
        rw [List.getElem?_append_left hbelow, htail o hbelow]
  · have hfull' : s.fill.toNat = 128 := by simp [hfull]
    obtain ⟨hflushed, hpending⟩ := flushed_concat_of_full b (hfill.symm.trans hfull')
    refine ⟨?_, ?_, fun o ho => ?_⟩
    · rw [← pending_length, hpending]
      rfl
    · have hblock := compress_h_of_holdsBlock (compress_of_read wr hc) (htail.holdsBlock_full (hlen.trans hfull'))
      rw [absorbedState_eq, hflushed, List.foldl_append, ← absorbedState_eq, ← hh]
      exact hblock
    · rw [hpending] at ho ⊢
      obtain rfl : o = 0 := Nat.lt_one_iff.mp ho
      exact Memory.read_write_same _ _ _

theorem Absorbed.absorbBytes {wr : Wiring} {seed : Seed} {msg d : List Byte} {s t : State}
    (hs : Absorbed wr seed msg s) (h : absorbBytes wr d s = .next t) : Absorbed wr seed (msg ++ d) t := by
  induction d generalizing s msg with
  | nil => rwa [next_eq_next.mp h, List.append_nil]
  | cons b bs ih =>
    obtain ⟨m, hm, ht⟩ := andThen_eq_next.mp h
    rw [List.append_cons]
    exact ih (hs.absorbByte hm) ht

/-- FINISH makes H the digest State of the message absorbed (R108). -/
theorem Absorbed.digest {wr : Wiring} {seed : Seed} {msg : List Byte} {mk : Marker127} {s t : State}
    (hs : Absorbed wr seed msg s) (h : padAndCompress wr mk s = .next t) : t.h = digestState wr seed msg := by
  rw [padAndCompress_h h ((pending_length msg).trans hs.fill_eq.symm) hs.tail_eq, hs.h_eq, digestState_eq]

/-! ### The command sequences of a digest (spec/30_encoding.md R81) -/

theorem execAll_singleton (i : Instr) (s : State) : execAll [i] s = exec i s := by
  rw [execAll]
  cases exec i s <;> rfl

/-- START and WRITEs absorb the concatenation of the pieces. -/
theorem execAll_start_writes {c : List (List Byte)} {s m : State} (hv : s.seedValid = true)
    (hm : absorbBytes Config.wiring c.flatten (openComputation (seedExpand s.seed) s) = .next m) :
    ∃ out, execAll (.start :: c.map .write) s = .next (m.withOut out) := by
  have hwrites := execAll_writes (s := respondOk [] (openComputation (seedExpand s.seed) s)) rfl (absorbBytes_withOut hm _)
  rw [withOut_withOut] at hwrites
  exact ⟨_, andThen_eq_next.mpr ⟨_, exec_of_effect (.start hv), hwrites⟩⟩

/-- START, the WRITEs and FINISH lead to DONE with the digest State of the bytes in H, and the command after them runs
there. -/
theorem execAll_hash (c : List (List Byte)) {s : State} (hs : Inv s) (hv : s.seedValid = true) :
    ∃ d : State, d.phase = .done ∧ d.h = digestState Config.wiring s.seed c.flatten ∧
      ∀ i, execAll (.start :: (c.map .write ++ [.finish, i])) s = exec i d := by
  obtain ⟨m, e, hm, he⟩ := openedComputation_completes c.flatten hs hv
  obtain ⟨-, -, hphase, -⟩ := absorbBytes_frame hm
  have hdigest := ((openComputation_absorbed Config.wiring s.seed s).absorbBytes hm).digest he
  obtain ⟨out, hwrites⟩ := execAll_start_writes hv hm
  have hfinish := exec_of_effect (.finish (s := m.withOut out) hphase (padAndCompress_withOut he out))
  refine ⟨respondOk [] { e.withOut out with fill := 0, phase := .done }, rfl, hdigest, fun i => ?_⟩
  rw [← List.cons_append, execAll_append, hwrites, andThen_next, execAll, hfinish, andThen_next, execAll_singleton]

end Sys2Proof.Machine

open Sys2Proof Sys2Proof.Machine

/-- Settles O21: FINISH answers (`padAndCompress_completes`), folds the blocks of the tail (`padAndCompress_h`) and keeps
the rest (`padAndCompress_frame`). -/
theorem finishFoldsTailBlocks : Obligations.FinishFoldsTailBlocks := by
  intro s tail hs hp hlen htail
  obtain ⟨m, hm⟩ := padAndCompress_completes Config.wiring (hs.bufferOk hp)
  obtain ⟨hseed, hvalid, -, herr, -, hinq, hout⟩ := padAndCompress_frame hm
  refine ⟨_, exec_of_effect (.finish hp hm), ?_⟩
  simp only [respondOk_h]
  exact ⟨padAndCompress_h hm hlen htail, rfl, rfl, herr, hseed, hvalid, hinq, congrArg (· ++ [_]) hout⟩

/-- Settles O50: after START, the WRITEs and FINISH H is the digest State (`execAll_hash`), and READB or READH answers it. -/
theorem hashCommandsComputeDigest : Obligations.HashCommandsComputeDigest := by
  intro s pieces hs hv
  obtain ⟨d, hdone, hdigest, hrun⟩ := execAll_hash pieces hs hv
  rw [← hdigest, hashToBytes, hrun, exec_of_effect (.readb hdone), hashToHexString, hrun, exec_of_effect (.readh hdone)]
  exact ⟨⟨_, rfl, hdone, rfl, List.getLast?_concat⟩, ⟨_, rfl, hdone, List.getLast?_concat⟩⟩

end

section
/-! The engine carries out the hasher of messages (spec/41_framer.md R108, spec/10_state.md R37): one lemma per effect of a
command on the relation `Implements`. -/

namespace Sys2Proof.Machine

open Sys2Proof.Spec

/-! ### The relation and the effects of a command -/

/-- The relation reads neither port. -/
theorem Implements.ports {s : State} {v : HashView} (h : Implements s v) (q : List Input) (o : List Response) :
    Implements { s with inq := q, out := o } v :=
  ⟨h.seed_valid, h.seed_eq, h.phase_eq, h.err_eq, h.fill_eq, h.blk_wf, h.absorb_fill, h.absorb_h, h.absorb_tail, h.done_h⟩

theorem Implements.respondOk {s : State} {v : HashView} (h : Implements s v) (p : List Byte) :
    Implements (respondOk p s) v :=
  h.ports _ _

/-- FAILED keeps seed, FILL and message, whatever code ERR takes (R189, R171). -/
theorem Implements.failed {s : State} {v : HashView} (h : Implements s v) (e : ErrCode) :
    Implements { s with err := errByte e, phase := .failed } { v with err := errByte e, phase := .failed } where
  seed_valid := h.seed_valid
  seed_eq := h.seed_eq
  phase_eq := rfl
  err_eq := rfl
  fill_eq := h.fill_eq
  blk_wf := h.blk_wf
  absorb_fill := by simp
  absorb_h := by simp
  absorb_tail := by simp
  done_h := by simp

theorem Implements.raiseError {s : State} {v : HashView} (h : Implements s v) (e : ErrCode) :
    Implements (raiseError e s) (v.fail e).1 :=
  (h.failed e).ports _ _

/-- A seed loaded leaves the computation that is finished or failed as it is. -/
theorem Implements.loadSeed {s : State} {v : HashView} (h : Implements s v) (x : Seed) :
    Implements { s with seed := x, seedValid := true } { v with seed := some x } where
  seed_valid := rfl
  seed_eq := fun _ hx => Option.some.inj hx
  phase_eq := h.phase_eq
  err_eq := h.err_eq
  fill_eq := h.fill_eq
  blk_wf := h.blk_wf
  absorb_fill := h.absorb_fill
  absorb_h := h.absorb_h
  absorb_tail := h.absorb_tail
  done_h := h.done_h

/-- In ABSORB the engine has absorbed the view's message. -/
theorem Implements.absorbed {s : State} {v : HashView} (h : Implements s v) (hp : v.phase = .absorb) :
    Absorbed Config.wiring v.key v.msg s := by
  have hfill : s.fill.toNat = tailLength v.msg.length := h.fill_eq.trans (h.absorb_fill hp)
  refine ⟨hfill, h.absorb_h hp, fun o ho => ?_⟩
  rw [pending_length, ← h.absorb_fill hp] at ho
  rw [getElem?_pending, ← h.absorb_fill hp, h.absorb_tail hp o ho]

/-- An engine that has absorbed the view's message implements it, where the control registers agree. -/
theorem Absorbed.implements {s : State} {v : HashView} (h : Absorbed Config.wiring v.key v.msg s) (hp : v.phase = .absorb)
    (hvalid : s.seedValid = v.seed.isSome) (hseed : ∀ x, v.seed = some x → s.seed = x) (hphase : s.phase = v.phase)
    (herr : s.err = v.err) (hfill : v.fill = tailLength v.msg.length) (hwf : s.blk.wf = true) : Implements s v where
  seed_valid := hvalid
  seed_eq := hseed
  phase_eq := hphase
  err_eq := herr
  fill_eq := h.fill_eq.trans hfill.symm
  blk_wf := hwf
  absorb_fill := fun _ => hfill
  absorb_h := fun _ => h.h_eq
  absorb_tail := fun _ o ho => by
    rw [hfill, ← pending_length] at ho
    rw [hfill, ← getElem?_pending, h.tail_eq o ho]
  done_h := by simp [hp]

/-- START opens the computation under the seed loaded (R93). -/
theorem Implements.openComputation {s : State} {v : HashView} (h : Implements s v) {x : Seed} (hx : v.seed = some x) :
    Implements (openComputation (seedExpand s.seed) s)
      { v with key := x, msg := [], phase := .absorb, err := 0, fill := 0 } := by
  rw [h.seed_eq x hx]
  exact (openComputation_absorbed Config.wiring x s).implements rfl h.seed_valid h.seed_eq rfl rfl rfl h.blk_wf

/-- WRITE makes the message longer by its bytes (R101). -/
theorem Implements.absorbBytes {s m : State} {v : HashView} {d : List Byte} (h : Implements s v) (hp : v.phase = .absorb)
    (hm : absorbBytes Config.wiring d s = .next m) (hwf : m.blk.wf = true) :
    Implements m { v with msg := v.msg ++ d, fill := tailLength (v.msg ++ d).length } := by
  obtain ⟨hseed, hvalid, hphase, herr, -⟩ := absorbBytes_frame hm
  exact ((h.absorbed hp).absorbBytes hm).implements hp (hvalid.trans h.seed_valid) (fun x hx => hseed.trans (h.seed_eq x hx))
    (hphase.trans h.phase_eq) (herr.trans h.err_eq) rfl hwf

/-- FINISH leaves the digest of the message in H (R108). -/
theorem Implements.closeComputation {s m : State} {v : HashView} {mk : Marker127} (h : Implements s v)
    (hp : v.phase = .absorb) (hm : padAndCompress Config.wiring mk s = .next m) :
    Implements { m with fill := 0, phase := .done } { v with phase := .done, fill := 0 } := by
  obtain ⟨hseed, hvalid, -, herr, -⟩ := padAndCompress_frame hm
  have hwf : m.blk.wf = true := padAndCompress_wf hm h.blk_wf
  have hdigest : m.h = digestState Config.wiring v.key v.msg := (h.absorbed hp).digest hm
  exact {
    seed_valid := hvalid.trans h.seed_valid
    seed_eq := fun x hx => hseed.trans (h.seed_eq x hx)
    phase_eq := rfl
    err_eq := herr.trans h.err_eq
    fill_eq := rfl
    blk_wf := hwf
    absorb_fill := by simp
    absorb_h := by simp
    absorb_tail := by simp
    done_h := fun _ => hdigest }

theorem Implements.statusPayload_eq {s : State} {v : HashView} (h : Implements s v) :
    statusPayload s = [v.phase.byte, v.err, BitVec.ofNat 8 v.fill, statusFlags v.seed.isSome] := by
  have hfill : BitVec.ofNat 8 v.fill = s.fill := by simp [← h.fill_eq]
  rw [statusPayload, h.phase_eq, h.err_eq, h.seed_valid, hfill]

/-! ### A command and a frame -/

/-- The phase table refuses on the view what it refuses on the engine (R183). -/
theorem Implements.run_of_phaseError {s : State} {v : HashView} (h : Implements s v) (wr : Wiring) (order : HexOrder)
    {i : Instr} (herr : phaseError i s) : v.run wr order i = v.fail .ePhase := by
  cases i with
  | setseed x => exact if_pos (h.phase_eq.symm.trans herr)
  | start =>
    have hnone : v.seed = none := Option.isNone_iff_eq_none.mp (by simpa [phaseError, h.seed_valid] using herr)
    simp [HashView.run, hnone]
  | write | finish => exact if_neg (h.phase_eq ▸ phase_ne_absorb_iff.mpr herr)
  | readb | readh => exact if_neg (h.phase_eq ▸ phase_ne_done_iff.mpr herr)
  | status | abort => exact herr.elim

theorem HashView.run_start {v : HashView} {x : Seed} (hx : v.seed = some x) (wr : Wiring) (order : HexOrder) :
    v.run wr order .start = ({ v with key := x, msg := [], phase := .absorb, err := 0, fill := 0 }, ⟨okCode, []⟩) := by
  rw [HashView.run, hx]

/-- The result `r` of a frame or command in `s` is a next state that implements the view and has emitted the response of `w`,
the queue as it was. -/
def RefinesTo (r : Result) (s : State) (w : HashView × Response) : Prop :=
  ∃ t, r = .next t ∧ t.inq = s.inq ∧ t.out = s.out ++ [w.2] ∧ Implements t w.1

theorem Implements.exec_refines {s : State} {v : HashView} (h : Implements s v) (i : Instr) :
    RefinesTo (exec i s) s (v.run Config.wiring Config.hexOrder i) := by
  by_cases herr : phaseError i s
  · rw [h.run_of_phaseError _ _ herr]
    exact ⟨_, exec_of_phaseError herr, rfl, rfl, h.raiseError _⟩
  cases i with
  | setseed x =>
    have hrun : v.run Config.wiring Config.hexOrder (.setseed x) = _ := if_neg fun hp => herr (h.phase_eq.trans hp)
    rw [hrun]
    exact ⟨_, exec_of_effect (.setseed x herr), rfl, rfl, (h.loadSeed x).respondOk _⟩
  | start =>
    have hvalid : s.seedValid = true := Bool.eq_true_of_not_eq_false herr
    obtain ⟨x, hx⟩ := Option.isSome_iff_exists.mp (h.seed_valid.symm.trans hvalid)
    rw [HashView.run_start hx]
    exact ⟨_, exec_of_effect (.start hvalid), rfl, rfl, (h.openComputation hx).respondOk _⟩
  | write d =>
    have hp : s.phase = .absorb := by_contra fun hp => herr (phase_ne_absorb_iff.mp hp)
    have hv : v.phase = .absorb := h.phase_eq.symm.trans hp
    have hrun : v.run Config.wiring Config.hexOrder (.write d) = _ := if_pos hv
    obtain ⟨m, hm, hok⟩ := absorbBytes_completes Config.wiring d ((h.absorbed hv).bufferOk h.blk_wf)
    obtain ⟨-, -, -, -, hinq, hout⟩ := absorbBytes_frame hm
    rw [hrun]
    exact ⟨_, exec_of_effect (.write d hp hm), hinq, congrArg (· ++ [_]) hout, (h.absorbBytes hv hm hok.blk_wf).respondOk _⟩
  | finish =>
    have hp : s.phase = .absorb := by_contra fun hp => herr (phase_ne_absorb_iff.mp hp)
    have hv : v.phase = .absorb := h.phase_eq.symm.trans hp
    have hrun : v.run Config.wiring Config.hexOrder .finish = _ := if_pos hv
    obtain ⟨m, hm⟩ := padAndCompress_completes Config.wiring ((h.absorbed hv).bufferOk h.blk_wf)
    obtain ⟨-, -, -, -, -, hinq, hout⟩ := padAndCompress_frame hm
    rw [hrun]
    exact ⟨_, exec_of_effect (.finish hp hm), hinq, congrArg (· ++ [_]) hout, (h.closeComputation hv hm).respondOk _⟩
  | readb =>
    have hp : s.phase = .done := by_contra fun hp => herr (phase_ne_done_iff.mp hp)
    have hv : v.phase = .done := h.phase_eq.symm.trans hp
    have hrun : v.run Config.wiring Config.hexOrder .readb = _ := if_pos hv
    rw [hrun, ← h.done_h hv]
    exact ⟨_, exec_of_effect (.readb hp), rfl, rfl, h.respondOk _⟩
  | readh =>
    have hp : s.phase = .done := by_contra fun hp => herr (phase_ne_done_iff.mp hp)
    have hv : v.phase = .done := h.phase_eq.symm.trans hp
    have hrun : v.run Config.wiring Config.hexOrder .readh = _ := if_pos hv
    rw [hrun, ← h.done_h hv]
    exact ⟨_, exec_of_effect (.readh hp), rfl, rfl, h.respondOk _⟩
  | status =>
    rw [HashView.run, ← h.statusPayload_eq]
    exact ⟨_, exec_of_effect (.status s), rfl, rfl, h.respondOk _⟩
  | abort => exact ⟨_, exec_of_effect (.abort s), rfl, rfl, (h.failed .eIo).respondOk _⟩

theorem Implements.stepFrame_refines {s : State} {v : HashView} (h : Implements s v) (f : Frame) :
    RefinesTo (stepFrame f s) s (v.frame Config.wiring Config.hexOrder f) := by
  rw [HashView.frame]
  rcases hd : decodeFrame f with e | i
  · rw [stepFrame_error hd]
    exact ⟨_, rfl, rfl, rfl, h.raiseError e⟩
  · rw [stepFrame_ok hd]
    exact h.exec_refines i

end Sys2Proof.Machine

open Sys2Proof.Machine

/-- Settles O54: the frame is taken from the port, and is an error entry or a command, which refine the view
(`Implements.stepFrame_refines`). -/
theorem engineRefinesMessageHasher : Obligations.EngineRefinesMessageHasher := by
  intro s v f rest h hq
  rw [step_of_frame hq]
  exact (h.ports rest s.out).stepFrame_refines f

end

section
/-! The Message Scheduler (spec/42_scheduler.md): the loaded words (R120), the recurrence in increasing order (R121, R122), and
the bytes a compression reads (R123). -/

namespace Sys2Proof.Machine

/-! ### The loaded words -/

/-- `WORD_LE` in numbers (spec/00_scope.md R12). -/
theorem toNat_wordLE (b0 b1 b2 b3 : Byte) :
    (wordLE b0 b1 b2 b3).toNat = b0.toNat + 2 ^ 8 * b1.toNat + 2 ^ 16 * b2.toNat + 2 ^ 24 * b3.toNat := by
  have hlt : leNat [b0, b1, b2, b3] < 256 ^ 4 := leNat_lt [b0, b1, b2, b3]
  rw [wordLE, BitVec.toNat_ofNat]
  simp only [leNat] at hlt ⊢
  omega

theorem getElem_rawWords (b : Fin 64 → Byte) {i : Nat} (h : i < 16) :
    (rawWords b)[i] = wordLE (b ⟨4 * i, by omega⟩) (b ⟨4 * i + 1, by omega⟩) (b ⟨4 * i + 2, by omega⟩) (b ⟨4 * i + 3, by omega⟩) :=
  Vector.getElem_ofFn h

/-! ### The recurrence -/

/-- The right side of the recurrence at index `i`, over the buffer `w` (R121). -/
def derivedWord (w : Vector Word 32) (i : Nat) (h : i < 32) : Word :=
  rotl (w[i - 5] ^^^ w[i - 7] ^^^ w[i - 9] ^^^ w[i - 13]) 1

theorem schedStep_eq_set (w : Vector Word 32) (i : Fin 16) :
    schedStep w i = w.set (16 + i.val) (derivedWord w (16 + i.val) (by omega)) := rfl

/-- A derived word reads lower indices only, so a write at its own index or above leaves it. -/
theorem derivedWord_set {w : Vector Word 32} {i j : Nat} (x : Word) (hi : i < 32) (hj : j < 32) (hlo : 16 ≤ i) (hij : i ≤ j) :
    derivedWord (w.set j x) i hi = derivedWord w i hi := by
  have hlower : ∀ d : Nat, 0 < d → (w.set j x)[i - d] = w[i - d] := fun d hd => Vector.getElem_set_ne hj _ (by omega)
  rw [derivedWord, derivedWord, hlower 5 (by omega), hlower 7 (by omega), hlower 9 (by omega), hlower 13 (by omega)]

/-- `n` steps of the expansion are done: the loaded words stand, and the first `n` derived words are those of the buffer as it
is, since no later step changes what they were computed from (R122). -/
structure Expanded (b : Fin 64 → Byte) (n : Nat) (w : Vector Word 32) : Prop where
  loaded : ∀ (i : Nat) (h : i < 16), w[i] = (rawWords b)[i]
  derived : ∀ (i : Nat) (h : i < 32), 16 ≤ i → i < 16 + n → w[i] = derivedWord w i h

theorem expanded_load (b : Fin 64 → Byte) : Expanded b 0 (rawWords b ++ Vector.replicate 16 (0 : Word)) where
  loaded _ h := Vector.getElem_append_left h
  derived _ _ hlo hhi := by omega

theorem Expanded.schedStep {b : Fin 64 → Byte} {w : Vector Word 32} (i : Fin 16) (hw : Expanded b i.val w) :
    Expanded b (i.val + 1) (schedStep w i) := by
  rw [schedStep_eq_set]
  refine ⟨fun j h => ?_, fun j h hlo hhi => ?_⟩
  · rw [Vector.getElem_set_ne _ _ (by omega), hw.loaded j h]
  · rw [derivedWord_set _ h _ hlo (by omega)]
    obtain hdone | rfl : j < 16 + i.val ∨ j = 16 + i.val := by omega
    · rw [Vector.getElem_set_ne _ _ (by omega), hw.derived j h hlo hdone]
    · exact Vector.getElem_set_self _

/-- A property of the index and the accumulator that holds at the start and that every step of a fold over `0 .. n - 1`
carries from its index to the next holds at the end. -/
theorem foldl_finRange_induction {α : Type} {n : Nat} {f : α → Fin n → α} {x : α} (motive : Nat → α → Prop)
    (hzero : motive 0 x) (hstep : ∀ (i : Fin n) (a : α), motive i.val a → motive (i.val + 1) (f a i)) :
    motive n ((List.finRange n).foldl f x) := by
  induction n generalizing x motive with
  | zero => exact hzero
  | succ n ih =>
    rw [List.finRange_succ, List.foldl_cons, List.foldl_map]
    exact ih (fun k => motive (k + 1)) (hstep 0 x hzero) fun i => hstep i.succ

theorem schedule_expanded (b : Fin 64 → Byte) : Expanded b 16 (schedule b) :=
  foldl_finRange_induction (Expanded b) (expanded_load b) fun i _ => Expanded.schedStep i

end Sys2Proof.Machine

open Sys2Proof.Machine

/-- Settles O31: the finished schedule has the loaded words and all sixteen derived ones (`schedule_expanded`). -/
theorem scheduleSatisfiesRecurrence : Obligations.ScheduleSatisfiesRecurrence := by
  intro b
  obtain ⟨hloaded, hderived⟩ := schedule_expanded b
  refine ⟨fun i h => ?_, fun i hlo hhi => hderived i hhi hlo hhi⟩
  rw [hloaded i h, getElem_rawWords b h, toNat_wordLE]

/-- Settles O37: a compression is the function of the bytes at offsets 0..63 that `compress_eq_next` gives, and the other buffer
has the same ones. -/
theorem compressIgnoresUpperHalf : Obligations.CompressIgnoresUpperHalf := by
  intro wr s t m h hread
  obtain ⟨b, hb, rfl⟩ := compress_eq_next.mp h
  have hm : ∀ o : Fin 64, m.read o.val = some (b o) := fun o => (hread o.val o.isLt).trans (hb o)
  exact ⟨rfl, compress_of_read wr hm⟩

end

section
/-! The Compressor (spec/43_compressor.md): the boolean functions (R131 to R134), the printed tables (R136, R137), one update
(R138), the finalization (R142), and the order of the 192 updates (R143). -/

namespace Sys2Proof.Machine

open Sys2Proof.Spec

/-! ### The boolean functions bit by bit -/

/-- Where z is 1, F1 flips it exactly when x and y differ (R131). -/
theorem getLsbD_f1 (x y z : Word) (i : Nat) :
    (f1 x y z).getLsbD i = (z.getLsbD i && (x.getLsbD i == y.getLsbD i)) := by
  simp only [f1, BitVec.getLsbD_xor, BitVec.getLsbD_and]
  cases z.getLsbD i
  · simp
  · cases x.getLsbD i <;> simp

theorem getLsbD_f2 (x y z : Word) (i : Nat) :
    (f2 x y z).getLsbD i = (x.getLsbD i ^^ y.getLsbD i ^^ z.getLsbD i) := by
  simp only [f2, BitVec.getLsbD_xor]

theorem getLsbD_f3 (x y z : Word) (i : Nat) :
    (f3 x y z).getLsbD i =
      ((x.getLsbD i && y.getLsbD i) || (x.getLsbD i && z.getLsbD i) || (y.getLsbD i && z.getLsbD i)) := by
  simp only [f3, BitVec.getLsbD_or, BitVec.getLsbD_and]

/-- Where z is 0, F4 is 1; where z is 1, its middle term repeats the first (R134). -/
theorem getLsbD_f4 (x y z : Word) {i : Nat} (hi : i < 32) :
    (f4 x y z).getLsbD i = (!z.getLsbD i || (x.getLsbD i && y.getLsbD i)) := by
  simp only [f4, BitVec.getLsbD_or, BitVec.getLsbD_and, BitVec.getLsbD_xor, BitVec.getLsbD_not, hi, decide_true, Bool.true_and]
  cases z.getLsbD i
  · simp
  · cases x.getLsbD i <;> simp

/-! ### One update -/

/-- An update never rotates the accumulator it added into (R136). -/
theorem dst_ne_tgt (k : Fin 6) : dst k ≠ tgt k := by
  decide +revert

/-- Reading an accumulator after the two writes of an update; the second reads what the first wrote (R138). -/
theorem getElem_update (wr : Wiring) (w : Vector Word 32) (r : Fin 4) (j : Fin 8) (k : Fin 6) (a : Vector Word 6)
    (i : Fin 6) :
    (update wr w r j k a)[i] =
      if i = tgt k then rotl a[tgt k] (rotTable r k) else if i = dst k then updateSum wr w r j k a else a[i] := by
  have hne : (dst k).val ≠ (tgt k).val := Fin.val_ne_of_ne (dst_ne_tgt k)
  simp only [update, Fin.getElem_fin, Vector.getElem_set, hne, if_false, Fin.ext_iff, eq_comm]

/-! ### The order of the updates -/

/-- Update number `48 r + 6 j + k` is the one of round r, iteration j and position k. -/
theorem updateOrder_eq_flatMap :
    updateOrder =
      (List.finRange 4).flatMap fun r => (List.finRange 8).flatMap fun j => (List.finRange 6).map fun k => (r, j, k) := by
  simp only [updateOrder, List.finRange, List.flatMap, List.map_ofFn]
  rw [List.ofFn_mul (m := 4) (n := 48)]
  congr 2
  funext r
  rw [Function.comp_apply, List.ofFn_mul (m := 8) (n := 6)]
  congr 2
  funext j
  rw [Function.comp_apply]
  congr 1
  funext k
  simp only [Function.comp_apply, Prod.mk.injEq, Fin.ext_iff]
  omega

/-- The four rounds of eight iterations of six updates are the 192 updates in one sequence (R143). -/
theorem rounds_eq_foldl_updateOrder (wr : Wiring) (w : Vector Word 32) (h : Vector Word 6) :
    rounds wr w h = updateOrder.foldl (fun a n => update wr w n.1 n.2.1 n.2.2 a) h := by
  simp only [updateOrder_eq_flatMap, List.foldl_flatMap, List.foldl_map]
  rfl

end Sys2Proof.Machine

open Sys2Proof.Machine Sys2Proof.Spec

/-- Settles O35: each accumulator is read off by `getElem_update`. -/
theorem updateWritesTwoAccumulators : Obligations.UpdateWritesTwoAccumulators := by
  intro wr w r j k a
  refine ⟨?_, ?_, fun i hdst htgt => ?_⟩
  · rw [getElem_update, if_neg (dst_ne_tgt k), if_pos rfl, updateSum]
  · rw [getElem_update, if_pos rfl]
  · rw [getElem_update, if_neg htgt, if_neg hdst]

/-- Settles O57: `compress_of_read`, with the nested rounds, iterations and updates as one sequence
(`rounds_eq_foldl_updateOrder`). -/
theorem compressRunsScheduleUpdatesFinalization : Obligations.CompressRunsScheduleUpdatesFinalization := by
  intro wr s b hb
  refine ⟨rounds wr (schedule b) s.h, rounds_eq_foldl_updateOrder wr (schedule b) s.h, ?_⟩
  rw [compress_of_read wr hb, compressH]

/-- Settles O33, one lemma for each round's function. -/
theorem booleanFunctionBits : Obligations.BooleanFunctionBits :=
  fun x y z i hi => ⟨getLsbD_f1 x y z i, getLsbD_f2 x y z i, getLsbD_f3 x y z i, getLsbD_f4 x y z hi⟩

/-- Settles O34: the tables are closed data, the disagreement of the two orders is `dst_ne_tgt`. -/
theorem orderAndRotateTables : Obligations.OrderAndRotateTables :=
  ⟨rfl, rfl, dst_ne_tgt, rfl, rfl, rfl, rfl⟩

/-- Settles O36: the printed terms are those of `finalization`, with `not C5` evaluated. -/
theorem finalizationWords : Obligations.FinalizationWords := by
  intro h a
  have hnot : ~~~finC5 = 0x71569076 := by decide
  rw [finalization, hnot, finC4, finC5]

end

section
/-! The Digest Formatter (spec/44_formatter.md): where the bytes and the digits stand (R160, R161), the digits' ASCII codes
(spec/30_encoding.md R82), and that H is recovered from either presentation (R164). -/

namespace Sys2Proof.Machine

/-! ### Concatenated blocks of one length -/

/-- The concatenation of blocks of length `n` has at `n * i + t` entry t of block i. -/
theorem getElem?_flatMap_of_length {α β : Type} {f : α → List β} {n : Nat} (hf : ∀ a, (f a).length = n) {t : Nat} (ht : t < n)
    (l : List α) (i : Nat) : (l.flatMap f)[n * i + t]? = l[i]?.bind fun a => (f a)[t]? := by
  induction l generalizing i with
  | nil => rfl
  | cons a l ih =>
    rw [List.flatMap_cons]
    cases i with
    | zero =>
      rw [Nat.mul_zero, Nat.zero_add, List.getElem?_append_left (by rwa [hf])]
      rfl
    | succ i =>
      have hpos : n * (i + 1) + t - n = n * i + t := by rw [Nat.mul_succ]; omega
      rw [List.getElem?_append_right (by rw [hf, Nat.mul_succ]; omega), hf, hpos, ih, List.getElem?_cons_succ]

/-- The same for a presentation of H, which renders each word in n entries (R160, R161). -/
theorem getElem?_flatMap_words {β : Type} {f : Word → List β} {n : Nat} (hf : ∀ w, (f w).length = n) {t : Nat} (ht : t < n)
    (h : Vector Word 6) (i : Fin 6) : (h.toList.flatMap f)[n * i.val + t]? = (f h[i])[t]? := by
  rw [getElem?_flatMap_of_length hf ht, Vector.getElem?_toList, Vector.getElem?_eq_getElem i.isLt]
  rfl

/-! ### The digest's bytes -/

theorem getElem?_leBytes {n t : Nat} (ht : t < n) (v : Nat) : (leBytes n v)[t]? = some (BitVec.ofNat 8 (v / 256 ^ t)) := by
  induction n generalizing t v with
  | zero => omega
  | succ n ih =>
    cases t with
    | zero => simp [leBytes]
    | succ t => rw [leBytes, List.getElem?_cons_succ, ih (by omega), Nat.div_div_eq_div_mul, Nat.pow_succ']

theorem le32_length (w : Word) : (le32 w).length = 4 := leBytes_length 4 w.toNat

/-- Byte t of `LE32(w)` is bits 8t + 7 .. 8t of the word (spec/00_scope.md R12). -/
theorem getElem?_le32 (w : Word) {t : Nat} (ht : t < 4) : (le32 w)[t]? = some (w.extractLsb' (8 * t) 8) := by
  rw [le32, getElem?_leBytes ht, BitVec.extractLsb', Nat.shiftRight_eq_div_pow, Nat.pow_mul]

theorem getElem?_toBytes (h : Vector Word 6) (i : Fin 6) {t : Nat} (ht : t < 4) :
    (toBytes h)[4 * i.val + t]? = some (h[i].extractLsb' (8 * t) 8) := by
  rw [toBytes, getElem?_flatMap_words le32_length ht, getElem?_le32 _ ht]

/-! ### The digits -/

/-- The ASCII codes of the digits (spec/30_encoding.md R82). -/
theorem toNat_asciiByte_hexDigit (n : BitVec 4) :
    (asciiByte (hexDigit n)).toNat = if n.toNat ≤ 9 then 0x30 + n.toNat else 0x41 + (n.toNat - 10) := by
  decide +revert

theorem hexValue_hexDigit (n : BitVec 4) : hexValue (hexDigit n) = some n := by
  decide +revert

theorem hexDigit_inj {m n : BitVec 4} : hexDigit m = hexDigit n ↔ m = n :=
  ⟨fun h => Option.some.inj ((hexValue_hexDigit m).symm.trans (h ▸ hexValue_hexDigit n)), congrArg hexDigit⟩

theorem hex2_length (v : Byte) : (hex2 v).length = 2 := rfl

theorem hexWord_length (w : Word) : (hexWord w).length = 8 := rfl

theorem exists_hexDigit_of_mem_toHex {order : HexOrder} {h : Vector Word 6} {c : Char} (hc : c ∈ toHex order h) :
    ∃ n, c = hexDigit n := by
  cases order with
  | bytewise =>
    obtain ⟨b, -, hb⟩ := List.mem_flatMap.mp hc
    obtain rfl | rfl : c = _ ∨ c = _ := by simpa [hex2] using hb
    · exact ⟨_, rfl⟩
    · exact ⟨_, rfl⟩
  | numeric =>
    obtain ⟨w, -, hw⟩ := List.mem_flatMap.mp hc
    obtain ⟨lo, -, rfl⟩ := List.mem_map.mp hw
    exact ⟨_, rfl⟩

/-- The digits of byte v are characters 2j and 2j + 1, where v is byte j (R161, BYTEWISE). -/
theorem getElem?_toHex_bytewise {h : Vector Word 6} {j : Nat} {v : Byte} (hv : (toBytes h)[j]? = some v) :
    (toHex .bytewise h)[2 * j]? = some (hexDigit (v.extractLsb' 4 4)) ∧
      (toHex .bytewise h)[2 * j + 1]? = some (hexDigit (v.extractLsb' 0 4)) := by
  have hread : ∀ t : Nat, t < 2 → (toHex .bytewise h)[2 * j + t]? = (hex2 v)[t]? := fun t ht => by
    rw [toHex, getElem?_flatMap_of_length hex2_length ht, hv, Option.bind_some]
  exact ⟨hread 0 (by decide), hread 1 (by decide)⟩

/-- Bits lo .. lo + k - 1 of a slice are bits of the word it was cut from. -/
theorem extractLsb'_extractLsb' {w start n lo k : Nat} (x : BitVec w) (h : lo + k ≤ n) :
    (x.extractLsb' start n).extractLsb' lo k = x.extractLsb' (start + lo) k := by
  refine BitVec.eq_of_getLsbD_eq fun b hb => ?_
  simp [hb, show lo + b < n by omega, Nat.add_assoc]

/-- Digit d of a word is the nibble at bit 28 - 4d (R161, NUMERIC). -/
theorem getElem?_hexWord (w : Word) {d : Nat} (hd : d < 8) :
    (hexWord w)[d]? = some (hexDigit (w.extractLsb' (28 - 4 * d) 4)) := by
  interval_cases d <;> rfl

theorem getElem?_toHex_numeric (h : Vector Word 6) (i : Fin 6) {d : Nat} (hd : d < 8) :
    (toHex .numeric h)[8 * i.val + d]? = some (hexDigit (h[i].extractLsb' (28 - 4 * d) 4)) := by
  rw [toHex, getElem?_flatMap_words hexWord_length hd, getElem?_hexWord _ hd]

/-! ### Recovering H -/

/-- The two nibbles of a byte, read back as `hexdecode` reads them, are the byte. -/
theorem extractLsb'_append_nibbles (v : Byte) : v.extractLsb' 4 4 ++ v.extractLsb' 0 4 = v :=
  (BitVec.extractLsb'_append_extractLsb'_eq_extractLsb' rfl).trans BitVec.extractLsb'_eq_self

theorem hexDecode_flatMap_hex2 (bs : List Byte) : hexDecode (bs.flatMap hex2) = some bs := by
  induction bs with
  | nil => rfl
  | cons b bs ih =>
    simp only [List.flatMap_cons, hex2, List.cons_append, List.nil_append, hexDecode, hexValue_hexDigit, ih,
      extractLsb'_append_nibbles]

theorem hexDecode_toHex_bytewise (h : Vector Word 6) : hexDecode (toHex .bytewise h) = some (toBytes h) :=
  hexDecode_flatMap_hex2 (toBytes h)

/-- A word is determined by its n slices of k bits. -/
theorem word_eq_of_slices {k n : Nat} (hk : 0 < k) (hn : 32 ≤ k * n) {x y : Word}
    (h : ∀ t : Nat, t < n → x.extractLsb' (k * t) k = y.extractLsb' (k * t) k) : x = y := by
  refine BitVec.eq_of_getLsbD_eq fun b hb => ?_
  have hslice := congrArg (fun v => v.getLsbD (b % k)) (h (b / k) (Nat.div_lt_of_lt_mul (hb.trans_le hn)))
  simpa [BitVec.getLsbD_extractLsb', Nat.mod_lt b hk, Nat.div_add_mod] using hslice

theorem toBytes_injective {h h' : Vector Word 6} (heq : toBytes h = toBytes h') : h = h' := by
  refine Vector.ext fun i hi => word_eq_of_slices (k := 8) (n := 4) (by decide) (by decide) fun t ht => ?_
  exact Option.some.inj ((getElem?_toBytes h ⟨i, hi⟩ ht).symm.trans (heq ▸ getElem?_toBytes h' ⟨i, hi⟩ ht))

theorem toHex_injective {order : HexOrder} {h h' : Vector Word 6} (heq : toHex order h = toHex order h') : h = h' := by
  cases order with
  | bytewise =>
    exact toBytes_injective
      (Option.some.inj ((hexDecode_toHex_bytewise h).symm.trans (heq ▸ hexDecode_toHex_bytewise h')))
  | numeric =>
    refine Vector.ext fun i hi => word_eq_of_slices (k := 4) (n := 8) (by decide) (by decide) fun t ht => ?_
    have hdigit := getElem?_toHex_numeric h ⟨i, hi⟩ (d := 7 - t) (by omega)
    rw [heq, getElem?_toHex_numeric h' ⟨i, hi⟩ (by omega), show 28 - 4 * (7 - t) = 4 * t by omega] at hdigit
    exact (hexDigit_inj.mp (Option.some.inj hdigit)).symm

/-! ### READH -/

theorem readhWith_of_done (order : HexOrder) {s : State} (h : s.phase = .done) :
    readhWith order s = .next (respondOk ((toHex order s.h).map asciiByte) s) :=
  if_pos h

end Sys2Proof.Machine

open Sys2Proof.Machine

/-- Settles O38: the bytes are read off by `getElem?_toBytes`. -/
theorem digestBytePlacement : Obligations.DigestBytePlacement :=
  fun h => ⟨toBytes_length h, fun i _ => getElem?_toBytes h i⟩

/-- Settles O39: the codes by `toNat_asciiByte_hexDigit`, the places by `getElem?_toHex_bytewise` at byte 4i + t, whose nibbles
are nibbles of the word, and by `getElem?_toHex_numeric`. -/
theorem hexDigitPlacement : Obligations.HexDigitPlacement := by
  refine ⟨fun n => ⟨fun h => ?_, fun h => ?_⟩, fun h => ⟨fun order => ⟨toHex_length order h, fun c hc => ?_⟩, fun i t ht => ?_,
    fun i d => getElem?_toHex_numeric h i⟩⟩
  · rw [toNat_asciiByte_hexDigit, if_pos h]
  · rw [toNat_asciiByte_hexDigit, if_neg (by omega)]
  · obtain ⟨_, hd, rfl⟩ := List.mem_map.mp hc
    obtain ⟨n, rfl⟩ := exists_hexDigit_of_mem_toHex hd
    rw [toNat_asciiByte_hexDigit]
    split <;> omega
  · obtain ⟨hhigh, hlow⟩ := getElem?_toHex_bytewise (getElem?_toBytes h i ht)
    rw [extractLsb'_extractLsb' _ (by decide)] at hhigh hlow
    rw [show 8 * i.val + 2 * t = 2 * (4 * i.val + t) by omega]
    exact ⟨hhigh, hlow⟩

/-- Settles O40: `hexDecode_toHex_bytewise`, and each presentation gives back H. -/
theorem hexDecodeGivesBytes : Obligations.HexDecodeGivesBytes :=
  ⟨hexDecode_toHex_bytewise, fun _ _ => toBytes_injective, fun _ _ _ => toHex_injective⟩

/-- Settles O25: the effect of READB in DONE (`exec_of_effect`). -/
theorem readbAnswersDigest : Obligations.ReadbAnswersDigest :=
  fun _ h => exec_of_effect (.readb h)

/-- Settles O26: the effect of READH in DONE, and the same in either digit order (`readhWith_of_done`). -/
theorem readhAnswersHexString : Obligations.ReadhAnswersHexString :=
  ⟨rfl, fun _ h => ⟨exec_of_effect (.readh h), fun order => readhWith_of_done order h⟩⟩

end

section
/-! The control path (spec/45_control.md): the dispatch of a frame (R172), STATUS and ABORT (R170, R171), and that outside DONE an
answer is a function of the control registers. -/

namespace Sys2Proof.Machine

open Sys2Proof.Spec

/-- The flags byte shows SEED_VALID in bit 0 and nothing in its other bits (spec/30_encoding.md R75). -/
theorem getLsbD_statusFlags (v : Bool) (i : Nat) : (statusFlags v).getLsbD i = (decide (i = 0) && v) := by
  cases v with
  | false => simp [statusFlags]
  | true => simp [statusFlags, BitVec.getLsbD_one]

/-- What a command answers outside DONE, from PHASE, ERR, FILL and SEED_VALID alone (R170, spec/60_exceptions.md R183). -/
def answerOutsideDone (i : Instr) (phase : Phase) (err fill : Byte) (seedValid : Bool) : Response :=
  match i with
  | .setseed _ => if phase = .absorb then ⟨errByte .ePhase, []⟩ else ⟨okCode, []⟩
  | .start => if seedValid then ⟨okCode, []⟩ else ⟨errByte .ePhase, []⟩
  | .write _ | .finish => if phase = .absorb then ⟨okCode, []⟩ else ⟨errByte .ePhase, []⟩
  | .readb | .readh => ⟨errByte .ePhase, []⟩
  | .status => ⟨okCode, [phase.byte, err, fill, statusFlags seedValid]⟩
  | .abort => ⟨okCode, []⟩

theorem answerOutsideDone_of_phaseError {i : Instr} {s : State} (h : phaseError i s) :
    answerOutsideDone i s.phase s.err s.fill s.seedValid = ⟨errByte .ePhase, []⟩ := by
  cases i with
  | setseed x => exact if_pos h
  | start => exact if_neg (Bool.not_eq_true _ ▸ h)
  | write | finish => exact if_neg (phase_ne_absorb_iff.mpr h)
  | readb | readh => rfl
  | status | abort => exact h.elim

/-- The accepted READB and READH, the only answers that show H, need DONE. -/
theorem Effect.out_of_not_done {i : Instr} {s t : State} (h : Effect i s t) (hp : s.phase ≠ .done) :
    t.out = s.out ++ [answerOutsideDone i s.phase s.err s.fill s.seedValid] := by
  cases h with
  | refused h => rw [answerOutsideDone_of_phaseError h, raiseError_out]
  | setseed x h => simp [answerOutsideDone, h]
  | start h => simp [answerOutsideDone, h]
  | write d h hm =>
    obtain ⟨-, -, -, -, -, hout⟩ := absorbBytes_frame hm
    simp [answerOutsideDone, h, hout]
  | finish h hm =>
    obtain ⟨-, -, -, -, -, -, hout⟩ := padAndCompress_frame hm
    simp [answerOutsideDone, h, hout]
  | readb h | readh h => exact absurd h hp
  | status | abort => rfl

/-- What a frame answers outside DONE: the code of the check it fails, or the answer of its command (spec/60_exceptions.md R188). -/
def frameAnswerOutsideDone (f : Frame) (phase : Phase) (err fill : Byte) (seedValid : Bool) : Response :=
  match decodeFrame f with
  | .ok i => answerOutsideDone i phase err fill seedValid
  | .error e => ⟨errByte e, []⟩

theorem step_out_of_not_done {s t : State} {f : Frame} {rest : List Input} (hp : s.phase ≠ .done)
    (hq : s.inq = .frame f :: rest) (h : step s = .next t) :
    t.out = s.out ++ [frameAnswerOutsideDone f s.phase s.err s.fill s.seedValid] := by
  rw [step_of_frame hq] at h
  unfold frameAnswerOutsideDone
  rcases hd : decodeFrame f with e | i
  · rw [stepFrame_error hd] at h
    obtain rfl := next_eq_next.mp h
    exact raiseError_out e _
  · rw [stepFrame_ok hd] at h
    exact (exec_effect h).out_of_not_done hp

end Sys2Proof.Machine

open Sys2Proof Sys2Proof.Machine

/-- Settles O43, by `step_completes`: waiting, reset and error entry always answer, a command by `exec_completes`. -/
theorem stepNeverStops : Obligations.StepNeverStops := fun _ => step_completes

/-- Settles O48: both answers are `frameAnswerOutsideDone` of the registers in which the two states agree
(`step_out_of_not_done`). -/
theorem answersHideDataOutsideDone : Obligations.AnswersHideDataOutsideDone := by
  intro s s' t t' f rest rest' hp hphase herr hfill hvalid hq hq' hstep hstep'
  have hout' := step_out_of_not_done (hphase ▸ hp) hq' hstep'
  rw [hphase, herr, hfill, hvalid] at hout'
  exact ⟨_, step_out_of_not_done hp hq hstep, hout'⟩

/-- Settles O6: a frame's bytes decode to the command that the frame does (`decode_bytes_eq_ok`). -/
theorem stepRunsDecodedCommand : Obligations.StepRunsDecodedCommand :=
  fun _ _ _ _ hq hd => (step_of_frame hq).trans (stepFrame_ok (decode_bytes_eq_ok.mp hd) _)

/-- Settles O27: the effect of STATUS, with `Phase.byte` evaluated in each phase and the flags by `getLsbD_statusFlags`. -/
theorem statusAnswersControlRegisters : Obligations.StatusAnswersControlRegisters := by
  intro s
  refine ⟨s.phase.byte, statusFlags s.seedValid, exec_of_effect (.status s), congrArg Phase.byte, congrArg Phase.byte,
    congrArg Phase.byte, congrArg Phase.byte, ?_, fun i hi => ?_⟩
  · rw [getLsbD_statusFlags, decide_eq_true rfl, Bool.true_and]
  · rw [getLsbD_statusFlags, decide_eq_false (Nat.ne_of_gt hi), Bool.false_and]

/-- Settles O28: the effect of ABORT. -/
theorem abortEntersFailed : Obligations.AbortEntersFailed :=
  fun s => exec_of_effect (.abort s)

end

section
/-! Errors and the phase FAILED (spec/60_exceptions.md): which frames the checks of opcode and length turn away (R181, R182), that
error entry is all an error does (R189), that every other answer is OK, and what leaves FAILED (R191). -/

namespace Sys2Proof.Machine

open Sys2Proof.Spec

/-! ### Frames that are no command -/

/-- Every opcode of R71 is one of 0x01 to 0x08. -/
theorem opOf_eq_none_of_illegal {b : Byte} (h : b = 0x00 ∨ 0x09 ≤ b.toNat) : opOf b = none := by
  rcases ho : opOf b with _ | op
  · rfl
  · obtain rfl := opOf_eq_some [] ho
    exact absurd h (by cases op <;> decide)

theorem decodeFrame_of_wrongLength {f : Frame} {op : Op} (h : opOf f.opcode = some op)
    (hl : legalLength op f.length = false) : decodeFrame f = .error .eFormat := by
  rw [decodeFrame_of_known h, hl, if_neg Bool.false_ne_true]

theorem step_of_decodeFrame_error {s : State} {f : Frame} {rest : List Input} {e : ErrCode}
    (hq : s.inq = .frame f :: rest) (hd : decodeFrame f = .error e) :
    step s = .next (raiseError e { s with inq := rest }) :=
  (step_of_frame hq).trans (stepFrame_error hd _)

theorem step_of_decodeFrame_ok {s : State} {f : Frame} {rest : List Input} {i : Instr}
    (hq : s.inq = .frame f :: rest) (hd : decodeFrame f = .ok i) : step s = exec i { s with inq := rest } :=
  (step_of_frame hq).trans (stepFrame_ok hd _)

/-! ### Error entry or OK -/

/-- A command that ends is refused by error entry, or it has answered OK. -/
theorem Effect.refused_or_ok {i : Instr} {s t : State} (h : Effect i s t) :
    (phaseError i s ∧ t = raiseError .ePhase s) ∨ ∃ p, t.out = s.out ++ [⟨okCode, p⟩] := by
  cases h with
  | refused hp => exact .inl ⟨hp, rfl⟩
  | write d hp hm =>
    obtain ⟨-, -, -, -, -, hout⟩ := absorbBytes_frame hm
    exact .inr ⟨[], by rw [respondOk_out, hout]⟩
  | finish hp hm =>
    obtain ⟨-, -, -, -, -, -, hout⟩ := padAndCompress_frame hm
    exact .inr ⟨[], by rw [respondOk_out, hout]⟩
  | setseed | start | readb | readh | status | abort => exact .inr ⟨_, rfl⟩

/-- The same for a frame, whose opcode or length may fail its check first. -/
theorem stepFrame_raises_or_ok {f : Frame} {s t : State} (h : stepFrame f s = .next t) :
    (∃ e, t = raiseError e s) ∨ ∃ p, t.out = s.out ++ [⟨okCode, p⟩] := by
  rcases hd : decodeFrame f with e | i
  · rw [stepFrame_error hd] at h
    exact .inl ⟨e, next_eq_next.mp h⟩
  · rw [stepFrame_ok hd] at h
    exact (exec_effect h).refused_or_ok.imp_left fun ⟨_, ht⟩ => ⟨_, ht⟩

/-! ### The phase FAILED -/

/-- Only an accepted START leaves FAILED: WRITE, FINISH, READB and READH are refused there, the others keep the phase. -/
theorem Effect.start_of_leaves_failed {i : Instr} {s t : State} (h : Effect i s t) (hp : s.phase = .failed)
    (ht : t.phase ≠ .failed) :
    i = .start ∧ s.seedValid = true ∧ t = respondOk [] (openComputation (seedExpand s.seed) s) := by
  cases h with
  | start hv => exact ⟨rfl, hv, rfl⟩
  | write _ h | finish h | readb h | readh h => rw [hp] at h; cases h
  | setseed | status => exact absurd hp ht
  | refused | abort => exact absurd rfl ht

/-- In FAILED every command answers, whatever the buffer holds: none reaches a compression. -/
theorem exec_completes_of_failed (i : Instr) {s : State} (hp : s.phase = .failed) : ∃ t, exec i s = .next t := by
  cases i with
  | setseed x => exact ⟨_, exec_of_effect (.setseed x (by simp [hp]))⟩
  | start =>
    cases hv : s.seedValid with
    | false => exact ⟨_, exec_of_phaseError hv⟩
    | true => exact ⟨_, exec_of_effect (.start hv)⟩
  | write | finish | readb | readh => exact ⟨_, exec_of_phaseError (.inr (.inr hp))⟩
  | status => exact ⟨_, exec_of_effect (.status s)⟩
  | abort => exact ⟨_, exec_of_effect (.abort s)⟩

/-- A frame that is not START is answered once and leaves the engine in FAILED. -/
theorem step_keeps_failed {s : State} {f : Frame} {rest : List Input} (hp : s.phase = .failed)
    (hq : s.inq = .frame f :: rest) (hf : isStart f = false) :
    ∃ t r, step s = .next t ∧ t.phase = .failed ∧ t.inq = rest ∧ t.out = s.out ++ [r] := by
  rcases hd : decodeFrame f with e | i
  · exact ⟨_, _, step_of_decodeFrame_error hq hd, rfl, rfl, rfl⟩
  · obtain ⟨t, ht⟩ := exec_completes_of_failed i (s := { s with inq := rest }) hp
    obtain ⟨hinq, r, hout, -⟩ := (exec_effect ht).follows_table
    refine ⟨t, r, (step_of_decodeFrame_ok hq hd).trans ht, by_contra fun hne => ?_, hinq, hout⟩
    obtain ⟨rfl, -⟩ := (exec_effect ht).start_of_leaves_failed hp hne
    obtain rfl := frame_of_decode_start hd
    exact absurd hf (by decide)

/-- READB and READH in FAILED (R183). -/
theorem step_read_of_failed {s : State} {op : Byte} {rest : List Input} (hp : s.phase = .failed)
    (hop : op = 0x05 ∨ op = 0x06) (hq : s.inq = .frame ⟨op, []⟩ :: rest) :
    step s = .next (raiseError .ePhase { s with inq := rest }) := by
  rcases hop with rfl | rfl
  · have hd : decodeFrame ⟨0x05, []⟩ = .ok .readb := decodeFrame_eq_ok.mpr ⟨rfl, rfl, rfl⟩
    exact (step_of_decodeFrame_ok hq hd).trans (exec_of_phaseError (.inr (.inr hp)))
  · have hd : decodeFrame ⟨0x06, []⟩ = .ok .readh := decodeFrame_eq_ok.mpr ⟨rfl, rfl, rfl⟩
    exact (step_of_decodeFrame_ok hq hd).trans (exec_of_phaseError (.inr (.inr hp)))

theorem run_succ_of_step {M : Host.Core} {s t : M.State} (h : M.step s = .next t) (k : Nat) : M.run (k + 1) s = M.run k t := by
  rw [Host.Core.run, h]

end Sys2Proof.Machine

open Sys2Proof Sys2Proof.Machine Sys2Proof.Spec

/-- Settles O7: the opcode map has no row for such a byte (`opOf_eq_none_of_illegal`), so the frame ends in error entry. -/
theorem stepAnswersIllegalOpcode : Obligations.StepAnswersIllegalOpcode :=
  fun _ _ _ hq hop => step_of_decodeFrame_error hq (decodeFrame_of_unknown (opOf_eq_none_of_illegal hop))

/-- Settles O8: each listed frame has a known opcode and a length its row does not allow, so it ends in error entry. -/
theorem stepAnswersWrongLength : Obligations.StepAnswersWrongLength := by
  intro s f rest hq hf
  have hwrong : ∃ op, opOf f.opcode = some op ∧ legalLength op f.length = false := by
    rcases hf with ⟨ho, hl⟩ | ⟨ho, hl⟩ | ⟨ho | ho | ho | ho | ho | ho, hl⟩
    · exact ⟨.setseed, congrArg opOf ho, decide_eq_false hl⟩
    · exact ⟨.write, congrArg opOf ho, by simp only [legalLength, Bool.and_eq_false_iff, decide_eq_false_iff_not]; omega⟩
    · exact ⟨.start, congrArg opOf ho, decide_eq_false hl⟩
    · exact ⟨.finish, congrArg opOf ho, decide_eq_false hl⟩
    · exact ⟨.readb, congrArg opOf ho, decide_eq_false hl⟩
    · exact ⟨.readh, congrArg opOf ho, decide_eq_false hl⟩
    · exact ⟨.status, congrArg opOf ho, decide_eq_false hl⟩
    · exact ⟨.abort, congrArg opOf ho, decide_eq_false hl⟩
  obtain ⟨op, ho, hl⟩ := hwrong
  exact step_of_decodeFrame_error hq (decodeFrame_of_wrongLength ho hl)

/-- Settles O14: a frame that has not answered OK ended in `raiseError` (`stepFrame_raises_or_ok`). -/
theorem errorEntryIsPrecise : Obligations.ErrorEntryIsPrecise := by
  intro s t f rest r hq hstep hout hcode
  rw [step_of_frame hq] at hstep
  rcases stepFrame_raises_or_ok hstep with ⟨e, rfl⟩ | ⟨p, hok⟩
  · obtain rfl : ⟨errByte e, []⟩ = r := by simpa using hout
    exact ⟨rfl, rfl⟩
  · obtain rfl : r = ⟨okCode, p⟩ := by simpa [hout] using hok
    exact absurd rfl hcode

/-- Settles O15, by `exec_of_phaseError` and `Effect.refused_or_ok`. -/
theorem phaseErrorsExactly : Obligations.PhaseErrorsExactly :=
  fun _ _ => ⟨exec_of_phaseError, fun hp _ h => (exec_effect h).refused_or_ok.resolve_left fun ⟨herr, _⟩ => hp herr⟩

/-- Settles O44: of a step's four kinds waiting and error entry stay in FAILED, reset leaves to IDLE, and of the commands only
START leaves (`Effect.start_of_leaves_failed`). -/
theorem onlyStartOrResetLeavesFailed : Obligations.OnlyStartOrResetLeavesFailed := by
  refine ⟨fun s t hp hstep ht => ?_, fun s i hp hi => ?_⟩
  · rcases step_cases s with ⟨-, hs⟩ | ⟨o, rest, hq, hs⟩ | ⟨f, rest, e, -, -, hs⟩ | ⟨f, rest, i, hq, hd, hs⟩
    · obtain rfl := next_eq_next.mp (hs.symm.trans hstep)
      exact absurd hp ht
    · obtain rfl := next_eq_next.mp (hs.symm.trans hstep)
      exact .inl ⟨o, rest, hq, rfl⟩
    · obtain rfl := next_eq_next.mp (hs.symm.trans hstep)
      exact absurd rfl ht
    · obtain ⟨rfl, hv, rfl⟩ := (exec_effect (hs.symm.trans hstep)).start_of_leaves_failed hp ht
      exact .inr ⟨rest, frame_of_decode_start hd ▸ hq, hv, rfl, rfl, rfl⟩
  · rcases hi with ⟨x, rfl⟩ | rfl | rfl
    · exact ⟨_, _, exec_of_effect (.setseed x (by simp [hp])), hp, rfl⟩
    · exact ⟨_, _, exec_of_effect (.status s), hp, rfl⟩
    · exact ⟨_, _, exec_of_effect (.abort s), rfl, rfl⟩

/-- Settles O47, by induction on the frames: each keeps FAILED and answers once (`step_keeps_failed`), and the read at their end
is refused (`step_read_of_failed`). -/
theorem noDigestUntilStart : Obligations.NoDigestUntilStart := by
  intro fs s rest op hp hfs hop hq
  induction fs generalizing s with
  | nil =>
    refine ⟨_, run_succ_of_step (M := core) (step_read_of_failed hp hop hq) 0, rfl, List.getLast?_concat, ?_⟩
    simp
  | cons f fs ih =>
    obtain ⟨hf, hfs⟩ := List.forall_mem_cons.mp hfs
    obtain ⟨m, r, hstep, hmp, hmq, hmout⟩ := step_keeps_failed hp hq hf
    obtain ⟨t, hrun, htp, hlast, hlen⟩ := ih m hmp hfs hmq
    refine ⟨t, (run_succ_of_step (M := core) hstep _).trans hrun, htp, hlast, ?_⟩
    rw [hlen, hmout, List.length_append, List.length_singleton, List.length_cons]
    omega

end

section
/-! Waiting and the reset input (spec/70_reset_and_hazards.md R210, R220): the two kinds of step that run no command. -/

open Sys2Proof.Machine

/-- Settles O9. -/
theorem stepWaitsWithoutInput : Obligations.StepWaitsWithoutInput := fun _ => step_of_nil

/-- Settles O10: `resetEngine` has the registers and the empty BLK of `State.reset`, and of the state before only the ports,
with the assertion of reset taken from the queue. -/
theorem resetInputResets : Obligations.ResetInputResets := by
  intro s abandoned rest hq
  have hblk (o) : (resetEngine { s with inq := rest }).blk.read o = none := by
    rw [resetEngine_blk, reset_blk, Memory.read_nil]
  exact ⟨resetEngine { s with inq := rest }, step_of_reset hq, reset_phase, reset_err, reset_seedValid, reset_fill, hblk,
    resetEngine_inq _, resetEngine_out _⟩

end
